-- ==== Sys2Proof/Word.lean ====
section
/-! DEFINITION. The bit-vector types of the block: bytes of the buffers and the 32-bit bus word (R8 `REG_WIDTH`,
R10, R13). Only what the spec treats as bits is a bit vector here; addresses and sizes are naturals (R11). -/

namespace Sys2Proof

/-- One byte of a buffer, of the RLE stream or of the output file. -/
abbrev Byte := BitVec 8

/-- One word of the register window (R21: each register is 32 bits wide). -/
abbrev Word := BitVec 32

end Sys2Proof
end

