-- ==== Sys2Proof/Config.lean ====
section
/-! DEFINITION. The parameters of R8 and R9, and the free values of the model: opaque constants without a body, so
that no proof can see what they are. -/

namespace Sys2Proof.Config

/-- `RASTER_W` (R8). -/
def rasterW : Nat := 320

/-- `RASTER_H` (R8). -/
def rasterH : Nat := 200

/-- `RASTER_CAP` = 64000 bytes, `RASTER_W` times `RASTER_H` (R8, R36); what the register of that name reads. -/
def rasterCap : Nat := 64000

/-- `IN_CAP` (R8, R72). -/
def inCap : Nat := 65535

/-- `PAL_ENTRIES` (R8, R45). -/
def palEntries : Nat := 256

/-- `PAL_BANKS` (R8, R45). -/
def palBanks : Nat := 2

/-- The bytes of one palette bank: 256 entries of 3 components (R45, R74). -/
def bankBytes : Nat := 768

/-- The bytes of space `PAL`, 1536 (R74). -/
def palCap : Nat := 1536

/-- The bytes of the register window (R21, R76). -/
def windowBytes : Nat := 256

/-- `REG_WIDTH` in bits (R8, R77). -/
def regWidth : Nat := 32

/-- `RES_PPM` (R8, R214): 3780, a number the spec itself marks as general knowledge (93 I12). PRESUMED, log 13. -/
def resPpm : Nat := 3780

/-- The most engine steps any command takes (R148: 1079 + `stride`·`H` with R220's largest file). -/
def maxCommandSteps : Nat := 257079

/-- `OUT_CAP`, the capacity of the standard sink: OPEN in R8. A free value (log 10). -/
opaque outCap : Nat

/-- The answer of a drawn sink once the answers listed in State are used up (R85: "a free draw"); the argument is a
counter State holds, so that each draw is fresh. A free value (log 10). -/
opaque sinkAnswer : Nat → Bool

/-- The draw behind a progress register read while `BUSY` = 1 (R37: "a draw in that range, with no law on which
value"); the argument is a counter State holds. The reader reduces it into R37's range. A free value (log 9). -/
opaque progressDraw : Nat → Nat

end Sys2Proof.Config
end

