-- ==== Sys2Proof/Syntax.lean ====
section
/-! DEFINITION. The instructions of the block: one constructor per row of spec/opcode_table.json. -/

namespace Sys2Proof

/-- The two kinds of instruction of 30_encoding.md: the command words the host writes to `CMD` (R106, R107, R108) and
the pairs of the RLE stream with its one-byte tail (R100 to R103). Commands carry no operand (R106); a reserved
command keeps the whole word, since R144 says the check reads the whole word. -/
inductive Instr where
  /-- Command word 0x00000000 (R143). -/
  | nop
  /-- Command word 0x00000001 (R160). -/
  | rleDecode
  /-- Command word 0x00000002 (R190). -/
  | palConvert
  /-- Command word 0x00000003 (R210). -/
  | bmpEmit
  /-- Any other command word (R108, R144). -/
  | reservedCmd (w : Word)
  /-- A pair whose count is 0; its value is ignored (R102, R165). -/
  | run0 (value : Byte)
  /-- A pair whose count is 1 to 255 (R102, R164). -/
  | run (count value : Byte)
  /-- The lone last byte of an odd-length stream; it has no operand, since its byte is not read (R103, R166). -/
  | tail
  deriving DecidableEq, Repr

end Sys2Proof
end

