-- ==== Sys2Proof/WellFormed.lean ====
section
/-! DEFINITION. Which terms of `Instr` the encodings of 30_encoding.md can spell. -/

namespace Sys2Proof

/-- A reserved command is a word that is none of the four commands (R107, R108), and a `RUN` has a nonzero count
(R102: a pair with count 0 is a `RUN0`). Every other term is well formed (R104). -/
def Instr.wellFormed : Instr → Bool
  | .nop => true
  | .rleDecode => true
  | .palConvert => true
  | .bmpEmit => true
  | .reservedCmd w => w != 0 && w != 1 && w != 2 && w != 3
  | .run0 _ => true
  | .run count _ => count != 0
  | .tail => true

end Sys2Proof
end

