-- ==== Sys2Proof/Decode.lean ====
section
/-! DEFINITION. The decoder of command words and of the RLE stream, total on any bytes, and the encoder written from
the same tables (R100 to R109). -/

namespace Sys2Proof

/-- Which of the two instruction kinds a sequence of bytes is read as. A command reaches the block only through a
write to `CMD`, a pair only from `IN` (30_encoding.md), so the context always says which. -/
inductive Format where
  /-- A 32-bit command word, its bytes little-endian (R70, R106). -/
  | cmd32
  /-- The declared bytes of the RLE stream not yet consumed (R100, R103). -/
  | stream
  deriving DecidableEq, Repr

/-- Why bytes are no instruction. -/
inductive DecodeError where
  /-- Fewer than the four bytes of a command word. -/
  | shortCommand
  /-- No byte of the stream is left: the end of the stream (R103), which is no instruction. -/
  | endOfStream
  deriving DecidableEq, Repr

/-- A command word from its four bytes, the least significant first (R70). -/
def wordOfBytes (b0 b1 b2 b3 : Byte) : Word :=
  b3 ++ b2 ++ b1 ++ b0

/-- The four bytes of a command word, the least significant first (R70). -/
def bytesOfWord (w : Word) : List Byte :=
  [w.extractLsb' 0 8, w.extractLsb' 8 8, w.extractLsb' 16 8, w.extractLsb' 24 8]

/-- The command opcode map, matched on the full word (R107); every other word is reserved, tried last (R108, R109). -/
def decodeCommand (w : Word) : Instr :=
  if w = 0x00000000 then .nop
  else if w = 0x00000001 then .rleDecode
  else if w = 0x00000002 then .palConvert
  else if w = 0x00000003 then .bmpEmit
  else .reservedCmd w

/-- A pair, told apart by its count alone (R102); `RUN0` is tried before `RUN` (R109). Every pair is legal (R104). -/
def decodePair (count value : Byte) : Instr :=
  if count = 0 then .run0 value else .run count value

/-- The instruction at the head of some bytes, with the bytes after it. In a stream the length left alone decides:
two bytes or more hold a pair, one byte is the tail, none is the end (R103). -/
def decode : Format → List Byte → Except DecodeError (Instr × List Byte)
  | .cmd32, b0 :: b1 :: b2 :: b3 :: rest => .ok (decodeCommand (wordOfBytes b0 b1 b2 b3), rest)
  | .cmd32, _ => .error .shortCommand
  | .stream, [] => .error .endOfStream
  | .stream, [_] => .ok (.tail, [])
  | .stream, count :: value :: rest => .ok (decodePair count value, rest)

/-- All the instructions of a stream, in order, to its end (R103, R163). -/
def decodeStream : List Byte → List Instr
  | [] => []
  | [_] => [.tail]
  | count :: value :: rest => decodePair count value :: decodeStream rest

/-- The kind an instruction belongs to (R107, R102, R103). -/
def Instr.format : Instr → Format
  | .nop => .cmd32
  | .rleDecode => .cmd32
  | .palConvert => .cmd32
  | .bmpEmit => .cmd32
  | .reservedCmd _ => .cmd32
  | .run0 _ => .stream
  | .run _ _ => .stream
  | .tail => .stream

/-- The bytes of an instruction, the first at the lowest address (R100, R106, R107). The tail's one byte is arbitrary
in the spec ("The byte is not read", R166); the encoder writes 0x00, the table's match (DESIGN CHOICE, log 14). -/
def encode : Instr → List Byte
  | .nop => bytesOfWord 0x00000000
  | .rleDecode => bytesOfWord 0x00000001
  | .palConvert => bytesOfWord 0x00000002
  | .bmpEmit => bytesOfWord 0x00000003
  | .reservedCmd w => bytesOfWord w
  | .run0 value => [0x00, value]
  | .run count value => [count, value]
  | .tail => [0x00]

/-- The bits the opcode table gives the instruction's format: CMD32, PAIR16 or TAIL8 (R109). -/
def Instr.tableBits : Instr → Nat
  | .nop => 32
  | .rleDecode => 32
  | .palConvert => 32
  | .bmpEmit => 32
  | .reservedCmd _ => 32
  | .run0 _ => 16
  | .run _ _ => 16
  | .tail => 8

/-- The instruction as the number the opcode table writes: the command word, or `P` with the count in bits 15:8 and
the value in bits 7:0 (R105, R109). -/
def Instr.tableWord : Instr → Nat
  | .nop => 0
  | .rleDecode => 1
  | .palConvert => 2
  | .bmpEmit => 3
  | .reservedCmd w => w.toNat
  | .run0 value => value.toNat
  | .run count value => count.toNat * 256 + value.toNat
  | .tail => 0

/-- The stream bytes of a table number `P`: the count (bits 15:8) lies first in memory (R100, R105). -/
def pairBytesOfTable (w : Nat) : List Byte :=
  [BitVec.ofNat 8 (w / 256), BitVec.ofNat 8 w]

/-- The format and the bytes, as the hardware stores them, of an instruction the table numbers `w`: 8 bits or fewer
are the one-byte `TAIL8`, 16 a `PAIR16`, 32 a `CMD32` (R109; log 14). -/
def tableBytes (nbits w : Nat) : Option (Format × List Byte) :=
  if nbits ≤ 8 then some (.stream, [BitVec.ofNat 8 w])
  else if nbits ≤ 16 then some (.stream, pairBytesOfTable w)
  else if nbits ≤ 32 then some (.cmd32, bytesOfWord (BitVec.ofNat 32 w))
  else none

/-- The instruction the decoder reads from the table's number `w` of `nbits` bits. -/
def decodeTableWord (nbits w : Nat) : Option Instr :=
  match tableBytes nbits w with
  | none => none
  | some (format, bytes) =>
    match decode format bytes with
    | .ok (i, _) => some i
    | .error _ => none

end Sys2Proof
end

