-- ==== Sys2Proof/Machine/State.lean ====
section
/-! DEFINITION. The state of the block (R20, R21, R45, R50, R51), of its sink (R85) and of the host and platform that
drive it (R14, R81, R255, R280), as plain data; the reasons a step can stop; the state after reset (R55). -/

namespace Sys2Proof.Machine

/-- A byte memory: (address, byte) cells, addresses strictly rising. An unlisted address holds no value: R80, "A buffer
byte that nothing has written since reset holds no value". -/
abbrev Memory := List Host.Cell

/-- The canonical form of a memory: addresses strictly rising. An unlisted address reads as no value, so no entry can
equal what it would read as unlisted. -/
abbrev Memory.wf (m : Memory) : Prop := List.Pairwise (fun c d => c.1 < d.1) m

/-- Every listed address exists in a space of `size` bytes. -/
abbrev Memory.below (m : Memory) (size : Nat) : Prop := ∀ c ∈ m, c.1 < size

/-- The byte-addressed buffer spaces (R72, R73, R74). -/
inductive Space where
  | input
  | raster
  | pal
  deriving DecidableEq, Repr

/-- The twelve registers of the window (R21). -/
inductive Reg where
  | cmd
  | status
  | inLen
  | decLimit
  | inPos
  | cursor
  | palCfg
  | bmpW
  | bmpH
  | bmpCfg
  | outCount
  | rasterCap
  deriving DecidableEq, Repr

/-- The error codes of `STATUS.ERRCODE` by name (R250). The block raises four of them; the other three are numbered
for host software (R251). -/
inductive ErrorCode where
  | allocationFailure
  | malformedHeader
  | truncatedRead
  | decompressionOverflow
  | ioFailure
  | invalidIndex
  | invalidArgument
  deriving DecidableEq, Repr

/-- What a bus access addresses: the register window or a buffer space (R76, R110). -/
inductive BusTarget where
  | window
  | buffer (space : Space)
  deriving DecidableEq, Repr

/-- Whether a bus access reads or writes; the data of a byte write are its low eight bits. -/
inductive BusKind where
  | read
  | write (data : Word)
  deriving DecidableEq, Repr

/-- One host bus access, the encoding of a line of a host program: "(space, offset or address, width, data)" (R110).
Any width and address can be written down, so that the forms R77 refuses and the addresses of R78 can be issued. -/
structure BusAccess where
  target : BusTarget
  addr : Nat
  width : Nat
  kind : BusKind
  deriving DecidableEq, Repr

/-- One line of a host program still to be run: a bus access, or `wait`, "the loop `ld STATUS`; repeat while bit 0 is
1" (R110), which stays at the head of the program until it reads `BUSY` = 0. -/
inductive HostOp where
  | access (a : BusAccess)
  | wait
  deriving DecidableEq, Repr

/-- Who makes the next transition: the host, the engine, or the platform asserting reset (R14, R255, R280). -/
inductive Turn where
  | host
  | engine
  | reset
  deriving DecidableEq, Repr

/-- The sink attached to the block (R85): the standard sink, an array of `capacity` bytes, or any other sink, whose
answers to the coming `SinkOpen` and `SinkWrite` offers are listed in order (`true` is `ok`). Past the listed answers
each one is the free value `Config.sinkAnswer` (log 10). -/
inductive SinkKind where
  | standard (capacity : Nat)
  | drawn (answers : List Bool)
  deriving DecidableEq, Repr

/-- The engine's phase with the micro-state of the running command (R50, R140): which of the command's engine steps is
next. Every constructor but `idle` is a `RUNNING(op)`. -/
inductive Phase where
  /-- `IDLE`. -/
  | idle
  /-- `RUNNING(NOP)` (R143). -/
  | nop
  /-- `RUNNING(RESERVED)` (R144); the word is kept to name the instruction, and nothing reads it (log 17). -/
  | reserved (w : Word)
  /-- `RUNNING(RLE_DECODE)` before its start step (R161). -/
  | rleStart
  /-- `RUNNING(RLE_DECODE)` before a pair step (R162). -/
  | rlePairs
  /-- `RUNNING(PAL_CONVERT)` before its start step (R191). -/
  | palStart
  /-- `RUNNING(PAL_CONVERT)` before the component step of byte `n` of a bank, entry n / 3, component n mod 3 (R193). -/
  | palComponent (n : Fin 768)
  /-- `RUNNING(BMP_EMIT)` before its start step (R211). -/
  | bmpStart
  /-- `RUNNING(BMP_EMIT)` before the byte step of file offset `o` (R218). -/
  | bmpByte (o : Nat)
  deriving DecidableEq, Repr

/-- The configuration latched at acceptance (R51), each register at its implemented width. -/
structure Cfg where
  inLen : BitVec 16
  decLimit : BitVec 16
  palCfg : BitVec 10
  bmpW : BitVec 16
  bmpH : BitVec 16
  bmpCfg : BitVec 1
  deriving DecidableEq, Repr

/-- The progress registers as they stood at some moment (R32, R34, R35). -/
structure Progress where
  inPos : BitVec 16
  cursor : BitVec 16
  outCount : Word
  deriving DecidableEq, Repr

/-- Why a step stops. None of these is a `STATUS` code: they mark runs the model does not follow (R258). -/
inductive Fault where
  /-- `UnwrittenRead`: a read of a buffer byte nothing has written since reset (R80, R258). Raised by `lb`, by the pair
  step, by a component step and by a byte step. Safe: the hardware reads an arbitrary value. -/
  | unwrittenRead (space : Space) (addr : Nat)
  /-- `RefusedAccess`: a host access of a form outside R77, or a host buffer access while `BUSY` = 1 (R258, R286).
  Raised by the host's turn only. Safe: the hardware gives no defined result. -/
  | refusedAccess
  /-- A host buffer access at or beyond the space's size: "has no step in a model: the host is stuck" (R78). Raised by
  the host's turn only. Safe: nothing is claimed of such a run. -/
  | hostStuck
  deriving DecidableEq, Repr

/-- Why an instruction has no meaning. -/
inductive Refusal where
  /-- The instruction has no meaning in the model yet. Raised by `exec` alone, in an arm that rejects its instruction by
  name; no arm does so. Safe. -/
  | notModelled (mnemonic : String)
  deriving DecidableEq, Repr

/-- Everything the spec gives the machine (R20), then the sink, then the model's own account of the environment. A
register is held at the bits the spec implements; its reserved bits are hardwired to zero (R22; log 18). `CMD` holds no
value (R23) and `RASTER_CAP` is the constant `Config.rasterCap` (R36). -/
structure State where
  /-- `STATUS` bits 7:0 (R25): BUSY 0, DONE 1, ERR 2, OVR 3, ERRCODE 7:4. -/
  status : BitVec 8
  /-- `IN_LEN.LEN` (R27). -/
  inLen : BitVec 16
  /-- `DEC_LIMIT.LIMIT` (R28). -/
  decLimit : BitVec 16
  /-- `IN_POS` bits 15:0, the decoder's pc (R32). -/
  inPos : BitVec 16
  /-- `CURSOR` bits 15:0 (R34). -/
  cursor : BitVec 16
  /-- `PAL_CFG` bits 9:0 (R29). -/
  palCfg : BitVec 10
  /-- `BMP_W` bits 15:0 (R30). -/
  bmpW : BitVec 16
  /-- `BMP_H` bits 15:0 (R30). -/
  bmpH : BitVec 16
  /-- `BMP_CFG.PAL_BANK` (R31). -/
  bmpCfg : BitVec 1
  /-- `OUT_COUNT` (R35). -/
  outCount : Word
  /-- Space `IN` (R72). -/
  inBuf : Memory
  /-- Space `RASTER` (R73). -/
  raster : Memory
  /-- The palette file as the bytes of space `PAL` (R45, R74). -/
  pal : Memory
  /-- The engine's phase (R50). -/
  phase : Phase
  /-- The configuration latched at acceptance (R51). -/
  cfg : Cfg
  /-- The remaining count of the current run (R50; log 12). -/
  runLeft : BitVec 8
  /-- The sink's open state (R50, R55; log 11). -/
  sinkOpen : Bool
  /-- The bytes the sink holds: the byte accepted as number `k` of a BMP_EMIT at address `k` (R85; log 10). -/
  out : Memory
  /-- The sink attached (R85). The environment's. -/
  sink : SinkKind
  /-- How many free sink answers were drawn. The model's own (log 8, log 10). -/
  sinkDraws : Nat
  /-- The progress registers at the last acceptance, where R37's range begins. The model's own (log 8, log 9). -/
  accepted : Progress
  /-- How many free progress reads were drawn. The model's own (log 8, log 9). -/
  readDraws : Nat
  /-- What the last host read returned (R146, R147). The model's own (log 8). -/
  readData : Word
  /-- The rest of the host's program, in program order (R81). The environment's (log 2). -/
  inbox : List HostOp
  /-- Who moves next, and after that (R255). The environment's (log 2). -/
  turns : List Turn
  deriving DecidableEq, Repr

/-- The state after reset (R55, R280): every register at its stated value, the buffers unwritten, the engine idle, the
sink closed. `cfg` is unspecified there (zeros, log 7); the fields the spec does not give stand at the values of log 8,
log 10 and log 12. -/
def State.reset : State where
  status := 0
  inLen := 0
  decLimit := 64000
  inPos := 0
  cursor := 0
  palCfg := 0x86
  bmpW := 320
  bmpH := 200
  bmpCfg := 0
  outCount := 0
  inBuf := []
  raster := []
  pal := []
  phase := .idle
  cfg := { inLen := 0, decLimit := 0, palCfg := 0, bmpW := 0, bmpH := 0, bmpCfg := 0 }
  runLeft := 0
  sinkOpen := false
  out := []
  sink := .standard Config.outCap
  sinkDraws := 0
  accepted := { inPos := 0, cursor := 0, outCount := 0 }
  readDraws := 0
  readData := 0
  inbox := []
  turns := []

end Sys2Proof.Machine
end

