-- ==== Sys2Proof/Machine/Flags.lean ====
section
/-! DEFINITION. Every `STATUS` computation of the spec (R25, R52): the fields, and the value each event writes. -/

namespace Sys2Proof.Machine

/-- `STATUS.BUSY`, bit 0 (R25). -/
def statusBusy (st : BitVec 8) : Bool := st.getLsbD 0

/-- `STATUS.DONE`, bit 1 (R25). -/
def statusDone (st : BitVec 8) : Bool := st.getLsbD 1

/-- `STATUS.ERR`, bit 2 (R25). -/
def statusErr (st : BitVec 8) : Bool := st.getLsbD 2

/-- `STATUS.OVR`, bit 3 (R25). -/
def statusOvr (st : BitVec 8) : Bool := st.getLsbD 3

/-- `STATUS.ERRCODE`, bits 7:4 (R25). -/
def statusErrCode (st : BitVec 8) : BitVec 4 := st.extractLsb' 4 4

/-- The numbers of the error codes (R250). -/
def errorNumber : ErrorCode → BitVec 4
  | .allocationFailure => 1
  | .malformedHeader => 2
  | .truncatedRead => 3
  | .decompressionOverflow => 4
  | .ioFailure => 5
  | .invalidIndex => 6
  | .invalidArgument => 7

/-- What acceptance writes: `BUSY` alone (R140). -/
def statusAccepted : BitVec 8 := 0x01

/-- What a normal end writes: 0x2 | (`STATUS` & 0x8) (R141). -/
def statusNormalEnd (st : BitVec 8) : BitVec 8 := 0x02 ||| (st &&& 0x08)

/-- What `raise Error(code)` writes: 0x6 | (code << 4) | (`STATUS` & 0x8) (R252). -/
def statusError (code : ErrorCode) (st : BitVec 8) : BitVec 8 :=
  0x06 ||| ((errorNumber code).setWidth 8 <<< 4) ||| (st &&& 0x08)

/-- What a dropped `CMD` write does: `OVR` becomes 1, every other field stays (R142). -/
def statusDropped (st : BitVec 8) : BitVec 8 := st ||| 0x08

end Sys2Proof.Machine
end

