-- ==== Sys2Proof/Machine/Operands.lean ====
section
/-! DEFINITION. Every operand of the spec: the register offsets (R21), the fields of the latched configuration (R27 to
R31), the buffer addresses (R73, R74), the little-endian spellings (R13), the palette arithmetic (R192, R193) and the
bytes of the BMP file (R212 to R217). -/

namespace Sys2Proof.Machine

/-- The register at a byte offset of the window; none where the offset is unmapped (R21). -/
def regAt (offset : Nat) : Option Reg :=
  if offset = 0x00 then some .cmd
  else if offset = 0x04 then some .status
  else if offset = 0x08 then some .inLen
  else if offset = 0x0C then some .decLimit
  else if offset = 0x10 then some .inPos
  else if offset = 0x14 then some .cursor
  else if offset = 0x18 then some .palCfg
  else if offset = 0x1C then some .bmpW
  else if offset = 0x20 then some .bmpH
  else if offset = 0x24 then some .bmpCfg
  else if offset = 0x28 then some .outCount
  else if offset = 0x2C then some .rasterCap
  else none

/-- The byte offset of a register (R21). -/
def regOffset : Reg → Nat
  | .cmd => 0x00
  | .status => 0x04
  | .inLen => 0x08
  | .decLimit => 0x0C
  | .inPos => 0x10
  | .cursor => 0x14
  | .palCfg => 0x18
  | .bmpW => 0x1C
  | .bmpH => 0x20
  | .bmpCfg => 0x24
  | .outCount => 0x28
  | .rasterCap => 0x2C

/-- The size of a buffer space in bytes (R72, R73, R74). -/
def spaceSize : Space → Nat
  | .input => Config.inCap
  | .raster => Config.rasterCap
  | .pal => Config.palCap

/-- `PAL_CFG.SRC_DEPTH`, bits 3:0 (R29). -/
def srcDepth (v : BitVec 10) : BitVec 4 := v.extractLsb' 0 4

/-- `PAL_CFG.DST_DEPTH`, bits 7:4 (R29). -/
def dstDepth (v : BitVec 10) : BitVec 4 := v.extractLsb' 4 4

/-- `PAL_CFG.SRC_BANK`, bit 8 (R29). -/
def srcBank (v : BitVec 10) : BitVec 1 := v.extractLsb' 8 1

/-- `PAL_CFG.DST_BANK`, bit 9 (R29). -/
def dstBank (v : BitVec 10) : BitVec 1 := v.extractLsb' 9 1

/-- The address in space `PAL` of byte `n` of a bank: 768·b + n (R74). -/
def bankAddr (bank : BitVec 1) (n : Nat) : Nat := Config.bankBytes * bank.toNat + n

/-- The address in space `PAL` of component `c` of entry `i` of a bank: 768·b + 3·i + c (R74). -/
def palAddr (bank : BitVec 1) (i c : Nat) : Nat := bankAddr bank (3 * i + c)

/-- The depths R29 makes legal: 4, 6 and 8. -/
def legalDepth (d : BitVec 4) : Bool := d == 4 || d == 6 || d == 8

/-- `max(d)` = 2^d - 1: 15, 63 and 255 for the legal depths (R9, R192). -/
def depthMax (d : BitVec 4) : Nat := 2 ^ d.toNat - 1

/-- The stored result of one component: floor(v·max(dd) / max(ds)) mod 256 (R193, R196). -/
def convertComponent (ds dd : BitVec 4) (v : Byte) : Byte :=
  BitVec.ofNat 8 (v.toNat * depthMax dd / depthMax ds)

/-- `le16(v)`: the two bytes of v mod 2^16, the least significant first (R13). -/
def le16 (v : Nat) : List Byte := [BitVec.ofNat 8 v, BitVec.ofNat 8 (v / 2 ^ 8)]

/-- `le32(v)`: the four bytes of v mod 2^32, the least significant first (R13). -/
def le32 (v : Nat) : List Byte :=
  [BitVec.ofNat 8 v, BitVec.ofNat 8 (v / 2 ^ 8), BitVec.ofNat 8 (v / 2 ^ 16), BitVec.ofNat 8 (v / 2 ^ 24)]

/-- `stride`: `(W + 3) & ~3`, the smallest multiple of 4 at or above `W` (R212). -/
def bmpStride (w : Nat) : Nat := (w + 3) / 4 * 4

/-- `image_size` = stride·H (R212). -/
def bmpImageSize (w h : Nat) : Nat := bmpStride w * h

/-- `pix_off` = 14 + 40 + 1024 (R212). -/
def bmpPixOff : Nat := 1078

/-- `file_size` = pix_off + image_size (R212, R215). -/
def bmpFileSize (w h : Nat) : Nat := bmpPixOff + bmpImageSize w h

/-- Whether a width and a height are refused: `W` = 0, `H` = 0 or `W`·`H` > `RASTER_CAP` (R211). -/
def bmpRefused (w h : Nat) : Bool := w == 0 || h == 0 || Config.rasterCap < w * h

/-- The 14-byte file header (R213). -/
def bmpFileHeader (w h : Nat) : List Byte :=
  [0x42, 0x4D] ++ le32 (bmpFileSize w h) ++ le16 0 ++ le16 0 ++ le32 bmpPixOff

/-- The 40-byte info header, for a resolution constant `ppm` (R214). -/
def bmpInfoHeader (ppm w h : Nat) : List Byte :=
  le32 40 ++ le32 w ++ le32 h ++ le16 1 ++ le16 8 ++ le32 0 ++ le32 (bmpImageSize w h) ++ le32 ppm ++ le32 ppm
    ++ le32 256 ++ le32 0

/-- Where a byte of the file comes from. -/
inductive BmpSource where
  /-- A byte that depends on no buffer: a header byte, the reserved byte of a palette entry, a pad byte of a row. -/
  | fixed (b : Byte)
  /-- The byte of space `PAL` at an address (R216). -/
  | fromPal (addr : Nat)
  /-- The byte of space `RASTER` at an address (R217). -/
  | fromRaster (addr : Nat)
  deriving DecidableEq, Repr

/-- A palette byte: file offset 54 + 4·i + c holds blue, green, red of entry `i`, then 0x00 (R216). -/
def bmpPaletteSource (bank : BitVec 1) (i c : Nat) : BmpSource :=
  if c < 3 then .fromPal (palAddr bank i (2 - c)) else .fixed 0x00

/-- A pixel byte: column `j` of emitted row `e` is column `j` of raster row H - 1 - e, or a pad byte 0x00 where
`j` ≥ `W` (R217). -/
def bmpPixelSource (w h e j : Nat) : BmpSource :=
  if j < w then .fromRaster ((h - 1 - e) * w + j) else .fixed 0x00

/-- `byte(o)`: where the byte at file offset `o` comes from (R213, R214, R216, R217). -/
def bmpSource (ppm w h : Nat) (bank : BitVec 1) (o : Nat) : BmpSource :=
  if o < 54 then .fixed ((bmpFileHeader w h ++ bmpInfoHeader ppm w h).getD o 0)
  else if o < bmpPixOff then bmpPaletteSource bank ((o - 54) / 4) ((o - 54) % 4)
  else bmpPixelSource w h ((o - bmpPixOff) / bmpStride w) ((o - bmpPixOff) % bmpStride w)

end Sys2Proof.Machine
end

