-- ==== Sys2Proof/Machine/Ops.lean ====
section
/-! DEFINITION. The operations every meaning is written over: reading and writing the buffers (R79, R80), accepting a
command (R140), its normal end (R141), the error entry (R252), the sink (R85) and the platform's reset (R280, R281). -/

namespace Sys2Proof.Machine

/-- The byte a memory holds at an address; none where nothing was written (R80). -/
def Memory.read (m : Memory) (a : Nat) : Option Byte :=
  (m.find? (fun c => c.1 == a)).map (fun c => c.2)

/-- Writes `b` to each of the `n` addresses from `lo` on, keeping the canonical form. The loops of R161 and R162 write
one value to a range of addresses, and this is their effect. -/
def Memory.fill (m : Memory) (lo n : Nat) (b : Byte) : Memory :=
  m.filter (fun c => c.1 < lo) ++ (List.range' lo n).map (fun a => (a, b)) ++ m.filter (fun c => lo + n ≤ c.1)

/-- Writes one byte. -/
def Memory.write (m : Memory) (a : Nat) (b : Byte) : Memory := m.fill a 1 b

/-- The memory of a buffer space (R76). -/
def spaceMem (sp : Space) (s : State) : Memory :=
  match sp with
  | .input => s.inBuf
  | .raster => s.raster
  | .pal => s.pal

/-- `MemRead(S, addr, 1)` (R12): the byte, or the model fault `UnwrittenRead` where nothing was written (R80). -/
def memRead (sp : Space) (a : Nat) (s : State) : Except Fault Byte :=
  match (spaceMem sp s).read a with
  | some b => .ok b
  | none => .error (.unwrittenRead sp a)

/-- Writes `b` to `n` bytes of a space from `lo` on: `MemWrite(S, lo + j, 1, b)` for each j < n (R12). -/
def memFill (sp : Space) (lo n : Nat) (b : Byte) (s : State) : State :=
  match sp with
  | .input => { s with inBuf := s.inBuf.fill lo n b }
  | .raster => { s with raster := s.raster.fill lo n b }
  | .pal => { s with pal := s.pal.fill lo n b }

/-- `MemWrite(S, addr, 1, v)` (R12). -/
def memWrite (sp : Space) (a : Nat) (b : Byte) (s : State) : State := memFill sp a 1 b s

/-- The configuration registers, as acceptance latches them (R51). -/
def latchedCfg (s : State) : Cfg where
  inLen := s.inLen
  decLimit := s.decLimit
  palCfg := s.palCfg
  bmpW := s.bmpW
  bmpH := s.bmpH
  bmpCfg := s.bmpCfg

/-- The progress registers as they stand (R32, R34, R35). -/
def progress (s : State) : Progress where
  inPos := s.inPos
  cursor := s.cursor
  outCount := s.outCount

/-- The phase acceptance enters for a command word (R140). The arms of the pair instructions are never taken, since no
command word decodes to one. -/
def commandPhase (w : Word) : Phase :=
  match decodeCommand w with
  | .nop => .nop
  | .rleDecode => .rleStart
  | .palConvert => .palStart
  | .bmpEmit => .bmpStart
  | .reservedCmd w' => .reserved w'
  | .run0 _ => .reserved w
  | .run _ _ => .reserved w
  | .tail => .reserved w

/-- Command acceptance (R140): `STATUS` becomes `BUSY` alone, the configuration is latched, the phase is the word's.
The progress registers are only noted for R37. -/
def acceptCommand (w : Word) (s : State) : State :=
  { s with status := statusAccepted, cfg := latchedCfg s, phase := commandPhase w, accepted := progress s }

/-- A `CMD` write while `BUSY` = 1: the word is dropped and `OVR` set, nothing else changes (R142). -/
def dropCommand (s : State) : State := { s with status := statusDropped s.status }

/-- The normal end of a command (R141). -/
def normalEnd (s : State) : State := { s with status := statusNormalEnd s.status, phase := .idle }

/-- TAKING AN ERROR, the block's one exception entry: `raise Error(code)` (R252). It records the code and ends the
command; every write made before it stays (R253). There is no return from it: the next acceptance clears it (R256). -/
def raiseError (code : ErrorCode) (s : State) : State :=
  { s with status := statusError code s.status, phase := .idle }

/-- One draw of a sink whose answers are the environment's: the next listed answer, or a free value once none is left
(R85; log 10). -/
def drawSinkAnswer (answers : List Bool) (s : State) : Bool × State :=
  match answers with
  | ok :: rest => (ok, { s with sink := .drawn rest })
  | [] => (Config.sinkAnswer s.sinkDraws, { s with sinkDraws := s.sinkDraws + 1 })

/-- `SinkOpen()` (R85): the standard sink always answers `ok`. The sink's open state is the answer (log 11). -/
def sinkOpenCall (s : State) : Bool × State :=
  match s.sink with
  | .standard _ => (true, { s with sinkOpen := true })
  | .drawn answers =>
    let answer := drawSinkAnswer answers s
    (answer.1, { answer.2 with sinkOpen := answer.1 })

/-- Whether the sink accepts the `k`-th byte offered, and the state once it has answered (R85). -/
def sinkAccepts (k : Nat) (s : State) : Bool × State :=
  match s.sink with
  | .standard capacity => (decide (k < capacity), s)
  | .drawn answers => drawSinkAnswer answers s

/-- The `k`-th `SinkWrite(b)` of one BMP_EMIT: an accepted byte is stored as `OUT[k]` (R85). -/
def sinkWriteCall (k : Nat) (b : Byte) (s : State) : Bool × State :=
  let answer := sinkAccepts k s
  if answer.1 then (true, { answer.2 with out := answer.2.out.write k b }) else (false, answer.2)

/-- The platform's reset (R280, R281): the block takes its reset values and forgets its buffers; the sink keeps the bytes
it accepted; the host's program, the order of moves and the counters of the free draws are outside the block. -/
def platformReset (s : State) : State :=
  { State.reset with
    out := s.out, sink := s.sink, sinkDraws := s.sinkDraws, readDraws := s.readDraws, readData := s.readData,
    inbox := s.inbox, turns := s.turns }

end Sys2Proof.Machine
end

