-- ==== Sys2Proof/Machine/Command.lean ====
section
/-! DEFINITION. The commands with no work of their own: NOP (R143) and the reserved words (R144). A command's meaning is
ONE engine step of it (log 1). -/

namespace Sys2Proof.Machine

/-- The result type of a meaning. -/
abbrev Result := Host.Outcome State Fault Refusal

/-- NOP (R143): "in the first engine step after acceptance: perform the normal end". -/
def execNop (s : State) : Result := .next (normalEnd s)

/-- A reserved command (R144): "in the first engine step after acceptance: `raise Error(InvalidArgument)`", whatever the
word. -/
def execReservedCmd (_w : Word) (s : State) : Result := .next (raiseError .invalidArgument s)

end Sys2Proof.Machine
end

