-- ==== Sys2Proof/Machine/Bmp.lean ====
section
/-! DEFINITION. The BMP serializer (43_bmp.md): BMP_EMIT. -/

namespace Sys2Proof.Machine

/-- The latched width `W` (R210). -/
def cfgWidth (s : State) : Nat := s.cfg.bmpW.toNat

/-- The latched height `H` (R210). -/
def cfgHeight (s : State) : Nat := s.cfg.bmpH.toNat

/-- The size of the file the latched configuration asks for (R212). -/
def cfgFileSize (s : State) : Nat := bmpFileSize (cfgWidth s) (cfgHeight s)

/-- The start step (R211): `OUT_COUNT` becomes 0; the arguments are checked before the sink is opened; a failed open
raises `IOFailure` and offers no byte. -/
def bmpStart (s : State) : State :=
  let s' := { s with outCount := 0 }
  if bmpRefused (cfgWidth s) (cfgHeight s) then raiseError .invalidArgument s'
  else
    let answer := sinkOpenCall s'
    if answer.1 then { answer.2 with phase := .bmpByte 0 } else raiseError .ioFailure answer.2

/-- A byte of the file, read from where it comes; an unwritten buffer byte is the model fault (R80). -/
def sourceByte (src : BmpSource) (s : State) : Except Fault Byte :=
  match src with
  | .fixed b => .ok b
  | .fromPal a => memRead .pal a s
  | .fromRaster a => memRead .raster a s

/-- `byte(o)` of the file being emitted (R218). -/
def fileByte (o : Nat) (s : State) : Except Fault Byte :=
  sourceByte (bmpSource Config.resPpm (cfgWidth s) (cfgHeight s) s.cfg.bmpCfg o) s

/-- What follows an accepted byte: `OUT_COUNT` becomes o + 1, and after the last byte the normal end (R218). An offset
past the end is met in no run and ends too (log 19). -/
def bmpAdvance (o : Nat) (s : State) : State :=
  let s' := { s with outCount := BitVec.ofNat 32 (o + 1) }
  if o + 1 < cfgFileSize s then { s' with phase := .bmpByte (o + 1) } else normalEnd s'

/-- The byte step of file offset `o` (R218): the byte is offered; a refused byte raises `IOFailure` and `OUT_COUNT`
stays. -/
def bmpByteStep (o : Nat) (s : State) : Result :=
  match fileByte o s with
  | .error f => .fault f
  | .ok b =>
    let answer := sinkWriteCall o b s
    if answer.1 then .next (bmpAdvance o answer.2) else .next (raiseError .ioFailure answer.2)

/-- BMP_EMIT (R210): a start step, then one step per file byte. -/
def execBmpEmit (s : State) : Result :=
  match s.phase with
  | .bmpByte o => bmpByteStep o s
  | _ => .next (bmpStart s)

end Sys2Proof.Machine
end

