-- ==== Sys2Proof/Machine/Palette.lean ====
section
/-! DEFINITION. The palette bit-depth rescaler (42_palette.md): PAL_CONVERT. -/

namespace Sys2Proof.Machine

/-- The start step (R191): both depths are checked at once, before any write; otherwise the first component is next. -/
def palStart (s : State) : State :=
  if legalDepth (srcDepth s.cfg.palCfg) && legalDepth (dstDepth s.cfg.palCfg) then { s with phase := .palComponent 0 }
  else raiseError .invalidArgument s

/-- The result of component byte `n`: read from the source bank, rescaled, stored in the destination bank (R193). -/
def storeComponent (n : Nat) (v : Byte) (s : State) : State :=
  memWrite .pal (bankAddr (dstBank s.cfg.palCfg) n)
    (convertComponent (srcDepth s.cfg.palCfg) (dstDepth s.cfg.palCfg) v) s

/-- What follows the component step of byte `n`: the next component, or after byte 767 the normal end in the same step
(R190: "The last component step also performs the normal end"). -/
def palAdvance (n : Fin 768) (s : State) : State :=
  if h : n.val + 1 < 768 then { s with phase := .palComponent ⟨n.val + 1, h⟩ } else normalEnd s

/-- One component step (R193), for byte `n` of a bank: entry n / 3, component n mod 3, in increasing order. -/
def palComponentStep (n : Fin 768) (s : State) : Result :=
  match memRead .pal (bankAddr (srcBank s.cfg.palCfg) n.val) s with
  | .error f => .fault f
  | .ok v => .next (palAdvance n (storeComponent n.val v s))

/-- PAL_CONVERT (R190): a start step, then 768 component steps. -/
def execPalConvert (s : State) : Result :=
  match s.phase with
  | .palComponent n => palComponentStep n s
  | _ => .next (palStart s)

end Sys2Proof.Machine
end

