-- ==== Sys2Proof/Machine/Rle.lean ====
section
/-! DEFINITION. The RLE decompressor (41_rle.md): RLE_DECODE and the pair instructions RUN, RUN0 and TAIL. -/

namespace Sys2Proof.Machine

/-- What stands at `IN_POS` in the declared stream (R103). -/
inductive StreamItem where
  /-- No byte is left (R167). -/
  | done
  /-- One byte is left; it is not read (R166). -/
  | lone
  /-- A pair, its count byte and its value byte (R100). -/
  | pair (count value : Byte)
  deriving DecidableEq, Repr

/-- The bytes of the declared stream not yet consumed, `L - p` (R103). -/
def streamLeft (s : State) : Nat := s.cfg.inLen.toNat - s.inPos.toNat

/-- The item at `IN_POS`: the length left decides which, and only a pair's two bytes are read, in address order (R103,
R162, R168). -/
def streamItem (s : State) : Except Fault StreamItem :=
  if streamLeft s = 0 then .ok .done
  else if streamLeft s = 1 then .ok .lone
  else
    match memRead .input s.inPos.toNat s with
    | .error f => .error f
    | .ok count =>
      match memRead .input (s.inPos.toNat + 1) s with
      | .error f => .error f
      | .ok value => .ok (.pair count value)

/-- The room left in the destination, `LIM - k` (R162). -/
def room (s : State) : Nat := s.cfg.decLimit.toNat - s.cursor.toNat

/-- The start step of RLE_DECODE (R161): the progress registers become 0; a limit above `RASTER_CAP` is refused before
any write; otherwise `RASTER[0 .. LIM)` is cleared. -/
def rleStart (s : State) : State :=
  let s' := { s with inPos := 0, cursor := 0, runLeft := 0 }
  if Config.rasterCap < s.cfg.decLimit.toNat then raiseError .invalidArgument s'
  else { memFill .raster 0 s.cfg.decLimit.toNat 0x00 s' with phase := .rlePairs }

/-- The bytes of a run that fit: `n = min(count, LIM - k)` copies at `CURSOR`, and `CURSOR` moves past them (R162). What
is left of the count stays in the hidden run counter (R50; log 12). -/
def writeRun (count value : Byte) (s : State) : State :=
  let n := min count.toNat (room s)
  { memFill .raster s.cursor.toNat n value s with
    cursor := BitVec.ofNat 16 (s.cursor.toNat + n), runLeft := BitVec.ofNat 8 (count.toNat - n) }

/-- The pair branch of R162: the run is written; where it did not fit, `DecompressionOverflow` is raised with `IN_POS`
still at the pair (R170); otherwise `IN_POS` moves to the next pair (R164, R165). -/
def pairStep (count value : Byte) (s : State) : State :=
  let s' := writeRun count value s
  if room s < count.toNat then raiseError .decompressionOverflow s'
  else { s' with inPos := BitVec.ofNat 16 (s.inPos.toNat + 2) }

/-- RUN0 (R165): the pair branch with count 0; the value is ignored. -/
def execRun0 (value : Byte) (s : State) : Result := .next (pairStep 0 value s)

/-- RUN (R164, R170). -/
def execRun (count value : Byte) (s : State) : Result := .next (pairStep count value s)

/-- TAIL (R166): `raise Error(TruncatedRead)`; the byte is not read, `IN_POS` and `CURSOR` stay. -/
def execTail (s : State) : Result := .next (raiseError .truncatedRead s)

/-- The pair step in full (R162): the end of the stream, the tail or a pair, by the length left. -/
def rleContinue (s : State) : Result :=
  match streamItem s with
  | .error f => .fault f
  | .ok .done => .next (normalEnd s)
  | .ok .lone => execTail s
  | .ok (.pair count value) => .next (pairStep count value s)

/-- RLE_DECODE (R160): its start step (R161), and once decoding has begun the step of R162. The machine's step decodes a
pair or a tail and runs it as an instruction of its own, and comes here for the end of the stream (R167). -/
def execRleDecode (s : State) : Result :=
  match s.phase with
  | .rlePairs => rleContinue s
  | _ => .next (rleStart s)

end Sys2Proof.Machine
end

