-- ==== Sys2Proof/Machine/Dispatch.lean ====
section
/-! DEFINITION. The one dispatch: each instruction's arm is a direct call of its meaning. -/

namespace Sys2Proof.Machine

/-- The effect of one instruction: for a command one engine step of it, for a pair its pair step (log 1). -/
def exec (i : Instr) (s : State) : Host.Outcome State Fault Refusal :=
  match i with
  | .nop => Sys2Proof.Machine.execNop s
  | .rleDecode => Sys2Proof.Machine.execRleDecode s
  | .palConvert => Sys2Proof.Machine.execPalConvert s
  | .bmpEmit => Sys2Proof.Machine.execBmpEmit s
  | .reservedCmd w => Sys2Proof.Machine.execReservedCmd w s
  | .run0 value => Sys2Proof.Machine.execRun0 value s
  | .run count value => Sys2Proof.Machine.execRun count value s
  | .tail => Sys2Proof.Machine.execTail s

end Sys2Proof.Machine
end

