-- ==== Sys2Proof/Machine/Engine.lean ====
section
/-! DEFINITION. The engine: the instruction its next step runs, that step, and the command run alone to its end. -/

namespace Sys2Proof.Machine

/-- The instruction at `IN_POS` while RLE_DECODE runs (R162): a decoded pair, the tail, or at the end of the stream the
command itself, whose end step is next (R167). -/
def streamInstr (s : State) : Except Fault Instr :=
  match streamItem s with
  | .error f => .error f
  | .ok .done => .ok .rleDecode
  | .ok .lone => .ok .tail
  | .ok (.pair count value) => .ok (decodePair count value)

/-- The instruction the engine's next step runs; none when it is idle. -/
def currentInstr (s : State) : Except Fault (Option Instr) :=
  match s.phase with
  | .idle => .ok none
  | .nop => .ok (some .nop)
  | .reserved w => .ok (some (.reservedCmd w))
  | .rleStart => .ok (some .rleDecode)
  | .rlePairs => (streamInstr s).map some
  | .palStart => .ok (some .palConvert)
  | .palComponent _ => .ok (some .palConvert)
  | .bmpStart => .ok (some .bmpEmit)
  | .bmpByte _ => .ok (some .bmpEmit)

/-- One engine step: one atomic transition of the running command (R255). An idle engine does nothing (R265). -/
def engineStep (s : State) : Result :=
  match currentInstr s with
  | .error f => .fault f
  | .ok none => .next s
  | .ok (some i) => exec i s

/-- The engine alone, for at most `fuel` steps: the command run to its end, or to a model fault. -/
def engineRun : Nat → State → State
  | 0, s => s
  | fuel + 1, s =>
    match s.phase with
    | .idle => s
    | _ =>
      match engineStep s with
      | .next s' => engineRun fuel s'
      | .fault _ => s
      | .refused _ => s

/-- The final values of the progress registers of the running command, the far end of R37's range: what they hold when
the engine has run alone for as many steps as any command takes (R148; log 9). -/
def finalProgress (s : State) : Progress := progress (engineRun Config.maxCommandSteps s)

end Sys2Proof.Machine
end

