-- ==== Sys2Proof/Machine/Bus.lean ====
section
/-! DEFINITION. The host's side: register and buffer accesses (R77, R78, R145 to R147), and the moves of the three agents. -/

namespace Sys2Proof.Machine

/-- A natural between two bounds, whichever is the larger, chosen by a draw; every such natural is some draw's (R37). -/
def drawBetween (a b draw : Nat) : Nat := min a b + draw % (max a b - min a b + 1)

/-- A read of a progress register: exact while `BUSY` = 0; while `BUSY` = 1 a draw between its value at acceptance and
its final value (R37, R146; log 9). `field` picks the register. -/
def readProgress (field : Progress → Nat) (s : State) : State :=
  if statusBusy s.status then
    { s with
      readData := BitVec.ofNat 32
        (drawBetween (field s.accepted) (field (finalProgress s)) (Config.progressDraw s.readDraws))
      readDraws := s.readDraws + 1 }
  else { s with readData := BitVec.ofNat 32 (field (progress s)) }

/-- Register read `ld NAME` (R146): `CMD` and an unmapped offset read 0, `RASTER_CAP` its hardwired value, `STATUS` and
the configuration registers exactly what they hold. -/
def readRegister (r : Option Reg) (s : State) : State :=
  match r with
  | none => { s with readData := 0 }
  | some .cmd => { s with readData := 0 }
  | some .status => { s with readData := s.status.setWidth 32 }
  | some .inLen => { s with readData := s.inLen.setWidth 32 }
  | some .decLimit => { s with readData := s.decLimit.setWidth 32 }
  | some .inPos => readProgress (fun p => p.inPos.toNat) s
  | some .cursor => readProgress (fun p => p.cursor.toNat) s
  | some .palCfg => { s with readData := s.palCfg.setWidth 32 }
  | some .bmpW => { s with readData := s.bmpW.setWidth 32 }
  | some .bmpH => { s with readData := s.bmpH.setWidth 32 }
  | some .bmpCfg => { s with readData := s.bmpCfg.setWidth 32 }
  | some .outCount => readProgress (fun p => p.outCount.toNat) s
  | some .rasterCap => { s with readData := BitVec.ofNat 32 Config.rasterCap }

/-- Register write `st NAME, w` (R145): a configuration register takes the bits it implements, `CMD` accepts or drops a
command, the read-only registers and an unmapped offset ignore the write. -/
def writeRegister (r : Option Reg) (w : Word) (s : State) : State :=
  match r with
  | none => s
  | some .cmd => if statusBusy s.status then dropCommand s else acceptCommand w s
  | some .status => s
  | some .inLen => { s with inLen := w.setWidth 16 }
  | some .decLimit => { s with decLimit := w.setWidth 16 }
  | some .inPos => s
  | some .cursor => s
  | some .palCfg => { s with palCfg := w.setWidth 10 }
  | some .bmpW => { s with bmpW := w.setWidth 16 }
  | some .bmpH => { s with bmpH := w.setWidth 16 }
  | some .bmpCfg => { s with bmpCfg := w.setWidth 1 }
  | some .outCount => s
  | some .rasterCap => s

/-- Whether a window access has the one form R77 gives meaning: 32 bits wide, at a multiple of 4, within the window. -/
def windowForm (a : BusAccess) : Bool :=
  a.width == Config.regWidth && a.addr % 4 == 0 && decide (a.addr < Config.windowBytes)

/-- A window access (R77, R145, R146); any other form is refused (R77, R258). -/
def windowAccess (a : BusAccess) (s : State) : Result :=
  if windowForm a then
    match a.kind with
    | .read => .next (readRegister (regAt a.addr) s)
    | .write w => .next (writeRegister (regAt a.addr) w s)
  else .fault .refusedAccess

/-- A buffer access `sb` or `lb` (R147): one byte wide (R77); an address that does not exist leaves the host stuck
(R78); while `BUSY` = 1 it is refused (R286); a read of an unwritten byte is the model fault (R80). The order of these
checks is the model's (log 6). -/
def bufferAccess (sp : Space) (a : BusAccess) (s : State) : Result :=
  if a.width ≠ 8 then .fault .refusedAccess
  else if spaceSize sp ≤ a.addr then .fault .hostStuck
  else if statusBusy s.status then .fault .refusedAccess
  else
    match a.kind with
    | .write w => .next (memWrite sp a.addr (w.setWidth 8) s)
    | .read =>
      match memRead sp a.addr s with
      | .error f => .fault f
      | .ok b => .next { s with readData := b.setWidth 32 }

/-- One host bus access (R76, R79: atomic). -/
def busAccess (a : BusAccess) (s : State) : Result :=
  match a.target with
  | .window => windowAccess a s
  | .buffer sp => bufferAccess sp a s

/-- The host's move: the next line of its program. `wait` reads `STATUS` and is done once `BUSY` = 0 (R110). A host with
nothing left to do does nothing. -/
def hostTurn (s : State) : Result :=
  match s.inbox with
  | [] => .next s
  | .access a :: rest => busAccess a { s with inbox := rest }
  | .wait :: rest =>
    let s' := readRegister (some .status) s
    if statusBusy s.status then .next s' else .next { s' with inbox := rest }

/-- The move when no order is laid down: the engine while a command runs, so that every command ends (R290, R148), and
otherwise the host (log 2). -/
def defaultTurn (s : State) : Result :=
  match s.phase with
  | .idle => hostTurn s
  | _ => engineStep s

/-- One transition: the agent whose turn is next moves (R255). -/
def moveNext (s : State) : Result :=
  match s.turns with
  | [] => defaultTurn s
  | .host :: rest => hostTurn { s with turns := rest }
  | .engine :: rest => engineStep { s with turns := rest }
  | .reset :: rest => .next (platformReset { s with turns := rest })

end Sys2Proof.Machine
end

