-- ==== Sys2Proof/Machine/Fetch.lean ====
section
/-! DEFINITION. Placing one instruction where the next engine step finds it (log 3): what the host and the steps before it
would have left. Used by `State.withFetchWord` alone. -/

namespace Sys2Proof.Machine

/-- Lets the engine move next: nothing to do where no order is laid down, since a command is then running. -/
def engineNext (s : State) : State :=
  match s.turns with
  | [] => s
  | turns => { s with turns := .engine :: turns }

/-- The state once the host has written a command word to `CMD` and it was accepted (R140). -/
def placeCommand (w : Word) (s : State) : State := engineNext (acceptCommand w s)

/-- Bytes written to consecutive addresses of `IN`. -/
def placeBytes (a : Nat) (bytes : List Byte) (s : State) : State :=
  match bytes with
  | [] => s
  | b :: rest => placeBytes (a + 1) rest (memWrite .input a b s)

/-- The state in which RLE_DECODE is running past its start step, with exactly these bytes left of its declared stream:
they stand at `IN_POS` (moved to 0 where they would not fit below `IN_CAP`). -/
def placeStream (bytes : List Byte) (s : State) : State :=
  let p := if s.inPos.toNat + bytes.length ≤ Config.inCap then s.inPos.toNat else 0
  let running := acceptCommand 0x00000001 s
  engineNext (placeBytes p bytes
    { running with
      phase := .rlePairs
      inPos := BitVec.ofNat 16 p
      cfg := { running.cfg with inLen := BitVec.ofNat 16 (p + bytes.length) } })

/-- Places the instruction that the opcode table numbers `w`, in `nbits` bits (R105, R109). -/
def placeTableWord (nbits w : Nat) (s : State) : State :=
  match tableBytes nbits w with
  | none => s
  | some (.cmd32, bytes) =>
    match bytes with
    | [b0, b1, b2, b3] => placeCommand (wordOfBytes b0 b1 b2 b3) s
    | _ => s
  | some (.stream, bytes) => placeStream bytes s

end Sys2Proof.Machine
end

