-- ==== Sys2Proof/Machine/Step.lean ====
section
/-! DEFINITION. One step of the machine, and the state in which a given instruction is the next one run. -/

namespace Sys2Proof.Machine

/-- One atomic transition of the block with its host and platform (R255): see `moveNext`. -/
def step (s : State) : Host.Outcome State Fault Refusal := moveNext s

/-- The state in which the very next step runs the instruction the opcode table numbers `w` (see `placeTableWord`): a
command word as if the host had just written it to `CMD`, a pair or a tail as what is left of a running stream. -/
def State.withFetchWord (s : State) (nbits w : Nat) : State := placeTableWord nbits w s

end Sys2Proof.Machine
end

