-- ==== Sys2Proof/Machine/Assembler.lean ====
section
/-! DEFINITION. The spec's notation for host programs and RLE streams (R110, R111), and the host's side of the pipeline: the
directory record's layout (R130) and the slide program (R284). None of this is inside the block (R7): it says which accesses
a host makes, and the machine gives them their meaning. -/

namespace Sys2Proof.Machine

/-- The bus access of `st NAME, imm32`: (window, offset, 32, data) (R110). -/
def stAccess (r : Reg) (w : Word) : BusAccess :=
  { target := .window, addr := regOffset r, width := 32, kind := .write w }

/-- The bus access of `ld NAME` (R110). -/
def ldAccess (r : Reg) : BusAccess := { target := .window, addr := regOffset r, width := 32, kind := .read }

/-- The bus access of `sb S[addr], imm8`: (space, address, 8, data) (R110). -/
def sbAccess (sp : Space) (a : Nat) (b : Byte) : BusAccess :=
  { target := .buffer sp, addr := a, width := 8, kind := .write (b.setWidth 32) }

/-- The bus access of `lb S[addr]` (R110). -/
def lbAccess (sp : Space) (a : Nat) : BusAccess := { target := .buffer sp, addr := a, width := 8, kind := .read }

/-- `st NAME, imm32` (R110). -/
def asmSt (r : Reg) (w : Word) : List HostOp := [.access (stAccess r w)]

/-- `ld NAME` (R110). -/
def asmLd (r : Reg) : List HostOp := [.access (ldAccess r)]

/-- `sb S[addr], imm8` (R110). -/
def asmSb (sp : Space) (a : Nat) (b : Byte) : List HostOp := [.access (sbAccess sp a b)]

/-- `lb S[addr]` (R110). -/
def asmLb (sp : Space) (a : Nat) : List HostOp := [.access (lbAccess sp a)]

/-- The word of a command (R107, R108); none for an instruction of the RLE stream. -/
def commandWord : Instr → Option Word
  | .nop => some 0x00000000
  | .rleDecode => some 0x00000001
  | .palConvert => some 0x00000002
  | .bmpEmit => some 0x00000003
  | .reservedCmd w => some w
  | .run0 _ => none
  | .run _ _ => none
  | .tail => none

/-- `go MNEMONIC`: `st CMD, <word>` (R110). -/
def asmGo (i : Instr) : List HostOp :=
  match commandWord i with
  | some w => asmSt .cmd w
  | none => []

/-- `wait` (R110). -/
def asmWait : List HostOp := [.wait]

/-- `load S[addr], [b0, b1, ...]`: one `sb` per byte, at consecutive addresses (R110). -/
def asmLoad (sp : Space) (a : Nat) : List Byte → List HostOp
  | [] => []
  | b :: rest => asmSb sp a b ++ asmLoad sp (a + 1) rest

/-- `.run count, value`: one pair (R111). -/
def streamRun (count value : Byte) : List Byte := [count, value]

/-- `.tail count`: one lone byte (R111). -/
def streamTail (count : Byte) : List Byte := [count]

/-- `.fill n, value`: n / 255 pairs of count 255, then one of the remainder unless it is 0 (R111). -/
def streamFill (n : Nat) (value : Byte) : List Byte :=
  (List.replicate (n / 255) (streamRun 255 value)).flatten
    ++ (if n % 255 = 0 then [] else streamRun (BitVec.ofNat 8 (n % 255)) value)

/-- A directory record by its fields (R130). `mode`, `opaque4` and `trailing` have "no confirmed semantics" and are
carried unread (R133). -/
structure DirRecord where
  nameLength : Byte
  name : List Byte
  descriptionLength : Byte
  description : List Byte
  imageOffset : Word
  mode : BitVec 16
  compressedLength : BitVec 16
  opaque4 : Word
  palette : List Byte
  trailing : List Byte
  deriving DecidableEq, Repr

/-- The size of a directory record (R130). -/
def dirRecordBytes : Nat := 835

/-- Byte `i` of a list, 0 past its end; the parser reads inside a record of full length only. -/
def byteAt (bytes : List Byte) (i : Nat) : Byte := bytes.getD i 0

/-- The little-endian u16 at an offset (R70, R130). -/
def u16At (bytes : List Byte) (i : Nat) : BitVec 16 := byteAt bytes (i + 1) ++ byteAt bytes i

/-- The little-endian u32 at an offset (R70, R130). -/
def u32At (bytes : List Byte) (i : Nat) : Word :=
  wordOfBytes (byteAt bytes i) (byteAt bytes (i + 1)) (byteAt bytes (i + 2)) (byteAt bytes (i + 3))

/-- The fields of a record of 835 bytes, at the offsets of R130; none for any other length. -/
def parseDirRecord (bytes : List Byte) : Option DirRecord :=
  if bytes.length = dirRecordBytes then
    some {
      nameLength := byteAt bytes 0
      name := (bytes.drop 1).take 9
      descriptionLength := byteAt bytes 10
      description := (bytes.drop 11).take 25
      imageOffset := u32At bytes 36
      mode := u16At bytes 40
      compressedLength := u16At bytes 42
      opaque4 := u32At bytes 44
      palette := (bytes.drop 48).take 768
      trailing := (bytes.drop 816).take 19 }
  else none

/-- The slide pipeline of R284 for one record and its compressed bytes: load the stream and its length, load the palette
into bank 0, decode, rescale, emit, waiting for each command. -/
def slideProgram (r : DirRecord) (blob : List Byte) : List HostOp :=
  asmLoad .input 0 blob ++ asmSt .inLen (r.compressedLength.setWidth 32) ++ asmLoad .pal 0 r.palette
    ++ asmGo .rleDecode ++ asmWait ++ asmGo .palConvert ++ asmWait ++ asmGo .bmpEmit ++ asmWait

end Sys2Proof.Machine
end

