-- ==== Sys2Proof/Safety.lean ====
section
/-! DEFINITION. What claims about the machine are stated in: a step without a model fault, and the invariant the spec's rules
give every state a run reaches. -/

namespace Sys2Proof.Machine

/-- A step that meets no model fault and no refusal; R258: "A claim takes 'no model fault recorded' as a premise". -/
def Continues (s : State) : Prop := ∃ t, step s = .next t

/-- The error codes `STATUS` ever shows: 0, and those the block raises (R250, R251; I17). -/
def shownCode (c : BitVec 4) : Bool := c == 0 || c == 3 || c == 4 || c == 5 || c == 7

/-- The invariants of `STATUS` (R26), with the codes that occur. -/
abbrev StatusInv (st : BitVec 8) : Prop :=
  (statusBusy st = true → statusDone st = false) ∧
  (statusErr st = false ↔ statusErrCode st = 0) ∧
  (statusErr st = true → statusDone st = true) ∧
  shownCode (statusErrCode st) = true

/-- Each buffer is in canonical form and lists only addresses that exist (R72, R73, R74); so is the sink's array. -/
def BuffersInv (s : State) : Prop :=
  s.inBuf.wf ∧ s.inBuf.below Config.inCap ∧
  s.raster.wf ∧ s.raster.below Config.rasterCap ∧
  s.pal.wf ∧ s.pal.below Config.palCap ∧
  s.out.wf

/-- What holds of a running command, by its phase: the decoder stays inside its stream and its destination (R33, R168,
R171), a conversion runs at legal depths (R191), an emission is at the byte `OUT_COUNT` counts, inside a file of legal
dimensions (R211, R218), and a reserved word is none of the four commands (R140). -/
def PhaseInv (s : State) : Prop :=
  match s.phase with
  | .idle => True
  | .nop => True
  | .reserved w => (Instr.reservedCmd w).wellFormed = true
  | .rleStart => True
  | .rlePairs =>
    s.cfg.decLimit.toNat ≤ Config.rasterCap ∧ s.cursor.toNat ≤ s.cfg.decLimit.toNat ∧
    s.inPos.toNat ≤ s.cfg.inLen.toNat
  | .palStart => True
  | .palComponent _ => legalDepth (srcDepth s.cfg.palCfg) = true ∧ legalDepth (dstDepth s.cfg.palCfg) = true
  | .bmpStart => True
  | .bmpByte o =>
    bmpRefused (cfgWidth s) (cfgHeight s) = false ∧ o < cfgFileSize s ∧ s.outCount.toNat = o ∧ s.sinkOpen = true

/-- The invariant of the machine: `STATUS` is consistent (R26), `BUSY` = 1 exactly while a command runs (R50), the buffers
are well formed, `IN_POS` is even (R33), `CURSOR` stays within the raster (R34, R168), and the running command is where
its rules allow. -/
structure MachineInv (s : State) : Prop where
  status : StatusInv s.status
  busy : statusBusy s.status = true ↔ s.phase ≠ .idle
  buffers : BuffersInv s
  inPosEven : s.inPos.toNat % 2 = 0
  cursor : s.cursor.toNat ≤ Config.rasterCap
  phase : PhaseInv s

/-- Every buffer byte the running command may still read has been written (R283 step 1). -/
def InputsWritten (s : State) : Prop :=
  match s.phase with
  | .idle => True
  | .nop => True
  | .reserved _ => True
  | .rleStart => ∀ a, a < s.cfg.inLen.toNat → s.inBuf.read a ≠ none
  | .rlePairs => ∀ a, s.inPos.toNat ≤ a → a < s.cfg.inLen.toNat → s.inBuf.read a ≠ none
  | .palStart => ∀ n, n < 768 → s.pal.read (bankAddr (srcBank s.cfg.palCfg) n) ≠ none
  | .palComponent m => ∀ n, m.val ≤ n → n < 768 → s.pal.read (bankAddr (srcBank s.cfg.palCfg) n) ≠ none
  | .bmpStart =>
    (∀ a, a < cfgWidth s * cfgHeight s → s.raster.read a ≠ none) ∧
    (∀ n, n < 768 → s.pal.read (bankAddr s.cfg.bmpCfg n) ≠ none)
  | .bmpByte _ =>
    (∀ a, a < cfgWidth s * cfgHeight s → s.raster.read a ≠ none) ∧
    (∀ n, n < 768 → s.pal.read (bankAddr s.cfg.bmpCfg n) ≠ none)

/-- The engine steps the running command may still take (R148, R169, R194, R218). -/
def stepsLeft (s : State) : Nat :=
  match s.phase with
  | .idle => 0
  | .nop => 1
  | .reserved _ => 1
  | .rleStart => (s.cfg.inLen.toNat + 1) / 2 + 2
  | .rlePairs => (streamLeft s + 1) / 2 + 1
  | .palStart => 769
  | .palComponent n => 768 - n.val
  | .bmpStart => 1 + cfgFileSize s
  | .bmpByte o => cfgFileSize s - o

/-- The bytes stand in memory from an address on. -/
def HoldsAt (m : Memory) (lo : Nat) (bytes : List Byte) : Prop :=
  ∀ i, i < bytes.length → m.read (lo + i) = bytes[i]?

/-- The stream bytes of a list of (count, value) pairs (R100). -/
def pairBytes (pairs : List (Byte × Byte)) : List Byte := pairs.flatMap (fun p => [p.1, p.2])

/-- The bytes the runs of a list of pairs spell (R174): each value as often as its count. -/
def spelled (pairs : List (Byte × Byte)) : List Byte := pairs.flatMap (fun p => List.replicate p.1.toNat p.2)

/-- The natural spelled by bytes, the least significant first (R13, R70). -/
def leValue : List Byte → Nat
  | [] => 0
  | b :: rest => b.toNat + 256 * leValue rest

/-- The bits a configuration register implements (R145); none for a register a host cannot set. -/
def configMask : Reg → Option Word
  | .inLen => some 0x0000FFFF
  | .decLimit => some 0x0000FFFF
  | .palCfg => some 0x000003FF
  | .bmpW => some 0x0000FFFF
  | .bmpH => some 0x0000FFFF
  | .bmpCfg => some 0x00000001
  | .cmd => none
  | .status => none
  | .inPos => none
  | .cursor => none
  | .outCount => none
  | .rasterCap => none

end Sys2Proof.Machine
end

