-- ==== Sys2Proof/Certificates/Slice0/Obligations.lean ====
section
/-! DEFINITION. The statements about the machine, each from the spec's numbered rules. A frame is written as an equation of the
next state with the state before it, every field not named in it unchanged; bytes of a buffer are compared through
`Memory.read`. -/

open Sys2Proof Sys2Proof.Machine

/-! ### Encodings (30_encoding.md) -/

/-- Decoding what the encoder writes gives the instruction back, from its stored bytes and from the opcode table's number,
for every well-formed instruction (R100, R105 to R109). The tail's encoded byte is the model's choice (log 14). -/
def Obligations.EncodedInstrDecodesBack : Prop :=
  ∀ i : Instr, i.wellFormed = true →
    decode i.format (encode i) = .ok (i, []) ∧ decodeTableWord i.tableBits i.tableWord = some i

/-- A stream of encoded pairs decodes to exactly those pairs, and one more byte after them to the tail (R100, R102,
R103). -/
def Obligations.StreamOfPairsDecodesBack : Prop :=
  ∀ is : List Instr, (∀ i ∈ is, i.wellFormed = true ∧ i.format = .stream ∧ i ≠ .tail) →
    decodeStream (is.flatMap encode) = is ∧
    ∀ b : Byte, decodeStream (is.flatMap encode ++ [b]) = is ++ [.tail]

/-- Every command word is one instruction, well formed, that encodes to that word again: no word is shut out and no two
share a meaning (R107, R108). -/
def Obligations.EveryCommandWordHasOneMeaning : Prop :=
  ∀ w : Word,
    decode .cmd32 (bytesOfWord w) = .ok (decodeCommand w, []) ∧ (decodeCommand w).wellFormed = true ∧
    encode (decodeCommand w) = bytesOfWord w ∧
    (∀ i : Instr, i.wellFormed = true → encode i = bytesOfWord w → i = decodeCommand w)

/-- Every pair encoding is legal and decodes by its count alone (R102, R104). -/
def Obligations.EveryPairEncodingIsLegal : Prop :=
  ∀ (count value : Byte) (rest : List Byte),
    decode .stream (count :: value :: rest) =
      .ok (if count = 0 then .run0 value else .run count value, rest) ∧
    (decodePair count value).wellFormed = true ∧ encode (decodePair count value) = [count, value]

/-- The words the spec writes out decode to the instructions they stand for: the four commands and a reserved word as R107,
R144 give them, the pairs of R100's example and a lone byte. -/
def Obligations.SpecWordsDecodeAsWritten : Prop :=
  decode .cmd32 [0x00, 0x00, 0x00, 0x00] = .ok (.nop, []) ∧
  decode .cmd32 [0x01, 0x00, 0x00, 0x00] = .ok (.rleDecode, []) ∧
  decode .cmd32 [0x02, 0x00, 0x00, 0x00] = .ok (.palConvert, []) ∧
  decode .cmd32 [0x03, 0x00, 0x00, 0x00] = .ok (.bmpEmit, []) ∧
  decode .cmd32 [0x11, 0x00, 0x00, 0x00] = .ok (.reservedCmd 0x00000011, []) ∧
  decodeStream [0x05, 0x10, 0x03, 0x20] = [.run 0x05 0x10, .run 0x03 0x20] ∧
  decode .stream [0x00, 0x7F] = .ok (.run0 0x7F, []) ∧
  decode .stream [0x07] = .ok (.tail, [])

/-! ### Commands and the register window (40_command.md, 10_state.md) -/

/-- NOP ends normally and touches nothing but `STATUS` and the phase (R143, R141). -/
def Obligations.NopEndsNormally : Prop :=
  ∀ s : State, exec .nop s = .next { s with status := 0x02 ||| (s.status &&& 0x08), phase := .idle }

/-- A reserved command raises `InvalidArgument`, whatever its word, and touches nothing but `STATUS` and the phase (R144). -/
def Obligations.ReservedCommandRaisesInvalidArgument : Prop :=
  ∀ (w : Word) (s : State),
    exec (.reservedCmd w) s = .next { s with status := 0x76 ||| (s.status &&& 0x08), phase := .idle }

/-- A `CMD` write while idle is accepted: `STATUS` becomes 1, the configuration registers are latched, the phase is the
word's, and nothing else changes but `accepted`, the model's own note for R37 (log 9) (R140). -/
def Obligations.CommandWriteAcceptedWhenIdle : Prop :=
  ∀ (w : Word) (s : State), statusBusy s.status = false →
    ∃ t, busAccess (stAccess .cmd w) s = .next t ∧
      t = { s with
        status := 0x01
        cfg := { inLen := s.inLen, decLimit := s.decLimit, palCfg := s.palCfg, bmpW := s.bmpW, bmpH := s.bmpH,
                 bmpCfg := s.bmpCfg }
        phase := if w = 0 then .nop else if w = 1 then .rleStart else if w = 2 then .palStart
                 else if w = 3 then .bmpStart else .reserved w
        accepted := t.accepted }

/-- The note R37's range begins at: acceptance puts the progress registers, as they stand, into `accepted`, and while a command
runs no step but a platform reset changes it. The field is the model's own (log 9). -/
def Obligations.AcceptanceNotesTheProgressRegisters : Prop :=
  (∀ (w : Word) (s : State), statusBusy s.status = false →
    ∃ t, busAccess (stAccess .cmd w) s = .next t ∧
      t.accepted = { inPos := s.inPos, cursor := s.cursor, outCount := s.outCount }) ∧
  (∀ s t : State, statusBusy s.status = true → (∀ rest, s.turns ≠ .reset :: rest) → step s = .next t →
    t.accepted = s.accepted)

/-- A `CMD` write while busy changes `OVR` and nothing else (R142). -/
def Obligations.CommandWriteDroppedWhenBusy : Prop :=
  ∀ (w : Word) (s : State), statusBusy s.status = true →
    busAccess (stAccess .cmd w) s = .next { s with status := s.status ||| 0x08 } ∧
    statusOvr (s.status ||| 0x08) = true

/-- A configuration register written by the host reads back the written word under its mask, whether the block is idle or
busy, and the write changes no other register, no buffer and nothing of the engine (R145). -/
def Obligations.ConfigRegisterReadsBackMasked : Prop :=
  ∀ (r : Reg) (mask w : Word) (s : State), configMask r = some mask →
    ∃ t u, busAccess (stAccess r w) s = .next t ∧ busAccess (ldAccess r) t = .next u ∧
      u.readData = w &&& mask ∧
      t = { s with inLen := t.inLen, decLimit := t.decLimit, palCfg := t.palCfg, bmpW := t.bmpW, bmpH := t.bmpH,
                   bmpCfg := t.bmpCfg } ∧
      (r ≠ .inLen → t.inLen = s.inLen) ∧ (r ≠ .decLimit → t.decLimit = s.decLimit) ∧
      (r ≠ .palCfg → t.palCfg = s.palCfg) ∧ (r ≠ .bmpW → t.bmpW = s.bmpW) ∧ (r ≠ .bmpH → t.bmpH = s.bmpH) ∧
      (r ≠ .bmpCfg → t.bmpCfg = s.bmpCfg)

/-- A write to a read-only register or to an unmapped offset has no effect, and an unmapped offset reads 0 (R21, R145,
R146). -/
def Obligations.ReadOnlyAndUnmappedOffsetsIgnoreWrites : Prop :=
  (∀ (r : Reg) (w : Word) (s : State), r ∈ [Reg.status, .inPos, .cursor, .outCount, .rasterCap] →
    busAccess (stAccess r w) s = .next s) ∧
  (∀ (a : Nat) (w : Word) (s : State), 0x30 ≤ a → a < 256 → a % 4 = 0 →
    busAccess { target := .window, addr := a, width := 32, kind := .write w } s = .next s ∧
    busAccess { target := .window, addr := a, width := 32, kind := .read } s = .next { s with readData := 0 })

/-- What a register read returns while `BUSY` = 0, for all twelve registers, and that it changes nothing but the value
returned (R146, R21, R36). -/
def Obligations.RegisterReadsAreExactWhenIdle : Prop :=
  ∀ s : State, statusBusy s.status = false →
    busAccess (ldAccess .cmd) s = .next { s with readData := 0 } ∧
    busAccess (ldAccess .status) s = .next { s with readData := s.status.setWidth 32 } ∧
    busAccess (ldAccess .inLen) s = .next { s with readData := s.inLen.setWidth 32 } ∧
    busAccess (ldAccess .decLimit) s = .next { s with readData := s.decLimit.setWidth 32 } ∧
    busAccess (ldAccess .inPos) s = .next { s with readData := s.inPos.setWidth 32 } ∧
    busAccess (ldAccess .cursor) s = .next { s with readData := s.cursor.setWidth 32 } ∧
    busAccess (ldAccess .palCfg) s = .next { s with readData := s.palCfg.setWidth 32 } ∧
    busAccess (ldAccess .bmpW) s = .next { s with readData := s.bmpW.setWidth 32 } ∧
    busAccess (ldAccess .bmpH) s = .next { s with readData := s.bmpH.setWidth 32 } ∧
    busAccess (ldAccess .bmpCfg) s = .next { s with readData := s.bmpCfg.setWidth 32 } ∧
    busAccess (ldAccess .outCount) s = .next { s with readData := s.outCount } ∧
    busAccess (ldAccess .rasterCap) s = .next { s with readData := 64000 }

/-- A progress register read while `BUSY` = 1 returns a value between its value at acceptance and its final value, whatever
the draw, and changes nothing of the block (R37). The final value is that of the engine run alone (log 9). -/
def Obligations.ProgressReadWhileBusyStaysInRange : Prop :=
  ∀ s : State, statusBusy s.status = true →
    (∃ t, busAccess (ldAccess .inPos) s = .next t ∧
      t = { s with readData := t.readData, readDraws := t.readDraws } ∧
      min s.accepted.inPos.toNat (finalProgress s).inPos.toNat ≤ t.readData.toNat ∧
      t.readData.toNat ≤ max s.accepted.inPos.toNat (finalProgress s).inPos.toNat) ∧
    (∃ t, busAccess (ldAccess .cursor) s = .next t ∧
      t = { s with readData := t.readData, readDraws := t.readDraws } ∧
      min s.accepted.cursor.toNat (finalProgress s).cursor.toNat ≤ t.readData.toNat ∧
      t.readData.toNat ≤ max s.accepted.cursor.toNat (finalProgress s).cursor.toNat) ∧
    (∃ t, busAccess (ldAccess .outCount) s = .next t ∧
      t = { s with readData := t.readData, readDraws := t.readDraws } ∧
      min s.accepted.outCount.toNat (finalProgress s).outCount.toNat ≤ t.readData.toNat ∧
      t.readData.toNat ≤ max s.accepted.outCount.toNat (finalProgress s).outCount.toNat)

/-- A register access of another width or at an offset that is no multiple of 4, and a buffer access of another width than
a byte, are refused; every access of the register form answers (R77). -/
def Obligations.AccessFormsOutsideTheRuleAreRefused : Prop :=
  (∀ (a : BusAccess) (s : State), a.target = .window → a.width ≠ 32 ∨ a.addr % 4 ≠ 0 →
    busAccess a s = .fault .refusedAccess) ∧
  (∀ (sp : Space) (a : BusAccess) (s : State), a.target = .buffer sp → a.width ≠ 8 →
    busAccess a s = .fault .refusedAccess) ∧
  (∀ (a : BusAccess) (s : State), a.target = .window → a.width = 32 → a.addr % 4 = 0 → a.addr < 256 →
    ∃ t, busAccess a s = .next t)

/-- No host read changes anything but the value it returns (R79); a draw of R37 also moves the model's counter (log 9). -/
def Obligations.HostReadsHaveNoSideEffect : Prop :=
  ∀ (a : BusAccess) (s t : State), a.kind = .read → busAccess a s = .next t →
    t = { s with readData := t.readData, readDraws := t.readDraws }

/-- While `BUSY` = 1 no register write reaches the running command: its configuration, its phase, its progress and every
buffer stay (R51, R142, R288). -/
def Obligations.RegisterWriteWhileBusySparesTheCommand : Prop :=
  ∀ (r : Reg) (w : Word) (s : State), statusBusy s.status = true →
    ∃ t, busAccess (stAccess r w) s = .next t ∧ t.cfg = s.cfg ∧ t.phase = s.phase ∧ progress t = progress s ∧
      t.inBuf = s.inBuf ∧ t.raster = s.raster ∧ t.pal = s.pal ∧ statusBusy t.status = true

/-! ### Host buffer access (R74, R78, R80, R147, R286) -/

/-- While `BUSY` = 0 a byte the host writes is read back, every other byte of every space stays, and nothing else changes
(R147). -/
def Obligations.HostByteWriteIsReadBack : Prop :=
  ∀ (sp : Space) (a : Nat) (b : Byte) (s : State), statusBusy s.status = false → a < spaceSize sp →
    ∃ t, busAccess (sbAccess sp a b) s = .next t ∧
      busAccess (lbAccess sp a) t = .next { t with readData := b.setWidth 32 } ∧
      (∀ sp' a', (sp' ≠ sp ∨ a' ≠ a) → (spaceMem sp' t).read a' = (spaceMem sp' s).read a') ∧
      t = { s with inBuf := t.inBuf, raster := t.raster, pal := t.pal }

/-- A host buffer access at or beyond the space's size has no step: the host is stuck (R78). -/
def Obligations.AccessBeyondTheSpaceIsStuck : Prop :=
  ∀ (sp : Space) (a : Nat) (b : Byte) (s : State), spaceSize sp ≤ a →
    busAccess (lbAccess sp a) s = .fault .hostStuck ∧ busAccess (sbAccess sp a b) s = .fault .hostStuck

/-- A host buffer access to an address that exists is refused while `BUSY` = 1 (R286). -/
def Obligations.BufferAccessWhileBusyIsRefused : Prop :=
  ∀ (sp : Space) (a : Nat) (b : Byte) (s : State), statusBusy s.status = true → a < spaceSize sp →
    busAccess (lbAccess sp a) s = .fault .refusedAccess ∧ busAccess (sbAccess sp a b) s = .fault .refusedAccess

/-- A read of a byte nothing has written is the model fault `UnwrittenRead`, at that byte, whether the host, the decoder, the
converter or the serializer reads it (R80). -/
def Obligations.UnwrittenByteReadFaults : Prop :=
  (∀ (sp : Space) (a : Nat) (s : State), statusBusy s.status = false → a < spaceSize sp →
    (spaceMem sp s).read a = none → busAccess (lbAccess sp a) s = .fault (.unwrittenRead sp a)) ∧
  (∀ s : State, s.phase = .rlePairs → 2 ≤ streamLeft s → s.inBuf.read s.inPos.toNat = none →
    engineStep s = .fault (.unwrittenRead .input s.inPos.toNat)) ∧
  (∀ s : State, s.phase = .rlePairs → 2 ≤ streamLeft s → s.inBuf.read s.inPos.toNat ≠ none →
    s.inBuf.read (s.inPos.toNat + 1) = none →
    engineStep s = .fault (.unwrittenRead .input (s.inPos.toNat + 1))) ∧
  (∀ (n : Fin 768) (s : State), s.phase = .palComponent n →
    s.pal.read (bankAddr (srcBank s.cfg.palCfg) n.val) = none →
    engineStep s = .fault (.unwrittenRead .pal (bankAddr (srcBank s.cfg.palCfg) n.val))) ∧
  (∀ (o a : Nat) (s : State), s.phase = .bmpByte o →
    bmpSource Config.resPpm (cfgWidth s) (cfgHeight s) s.cfg.bmpCfg o = .fromRaster a → s.raster.read a = none →
    engineStep s = .fault (.unwrittenRead .raster a)) ∧
  (∀ (o a : Nat) (s : State), s.phase = .bmpByte o →
    bmpSource Config.resPpm (cfgWidth s) (cfgHeight s) s.cfg.bmpCfg o = .fromPal a → s.pal.read a = none →
    engineStep s = .fault (.unwrittenRead .pal a))

/-! ### RLE_DECODE and the pairs (41_rle.md) -/

/-- The start step of RLE_DECODE zeroes the progress registers; at a limit up to 64000 it clears exactly `RASTER[0 .. LIM)`
and decoding begins, above that it raises `InvalidArgument` with no byte written (R161). The run counter is hidden state
(R50; log 12). -/
def Obligations.RleStartChecksItsLimitAndClears : Prop :=
  ∀ s : State, s.phase = .rleStart →
    (s.cfg.decLimit.toNat ≤ 64000 →
      ∃ t, exec .rleDecode s = .next t ∧
        t = { s with inPos := 0, cursor := 0, raster := t.raster, phase := .rlePairs, runLeft := t.runLeft } ∧
        ∀ a, t.raster.read a = if a < s.cfg.decLimit.toNat then some 0x00 else s.raster.read a) ∧
    (64000 < s.cfg.decLimit.toNat →
      ∃ t, exec .rleDecode s = .next t ∧
        t = { s with inPos := 0, cursor := 0, status := 0x76 ||| (s.status &&& 0x08), phase := .idle,
                     runLeft := t.runLeft })

/-- A RUN that fits writes its value `count` times at `CURSOR`, moves `CURSOR` by the count and `IN_POS` by 2, and touches
nothing else (R164; a pair stands at `IN_POS` where two bytes are left, R103). -/
def Obligations.RunThatFitsWritesItsCopies : Prop :=
  ∀ (count value : Byte) (s : State), 2 ≤ streamLeft s →
    s.cursor.toNat + count.toNat ≤ s.cfg.decLimit.toNat →
    ∃ t, exec (.run count value) s = .next t ∧
      t = { s with raster := t.raster, cursor := t.cursor, inPos := t.inPos, runLeft := t.runLeft } ∧
      t.cursor.toNat = s.cursor.toNat + count.toNat ∧ t.inPos.toNat = s.inPos.toNat + 2 ∧
      ∀ a, t.raster.read a =
        if s.cursor.toNat ≤ a ∧ a < s.cursor.toNat + count.toNat then some value else s.raster.read a

/-- A RUN that does not fit writes up to the limit and no further, sets `CURSOR` to the limit, raises
`DecompressionOverflow` and leaves `IN_POS` at the pair (R170). -/
def Obligations.RunThatOverflowsFillsToTheLimit : Prop :=
  ∀ (count value : Byte) (s : State), s.cursor.toNat ≤ s.cfg.decLimit.toNat →
    s.cfg.decLimit.toNat < s.cursor.toNat + count.toNat →
    ∃ t, exec (.run count value) s = .next t ∧
      t = { s with raster := t.raster, cursor := s.cfg.decLimit, runLeft := t.runLeft,
                   status := 0x46 ||| (s.status &&& 0x08), phase := .idle } ∧
      ∀ a, t.raster.read a =
        if s.cursor.toNat ≤ a ∧ a < s.cfg.decLimit.toNat then some value else s.raster.read a

/-- RUN0 writes nothing, whatever its value and even at a full destination, and moves `IN_POS` by 2 (R165). -/
def Obligations.RunOfCountZeroWritesNothing : Prop :=
  ∀ (value : Byte) (s : State), 2 ≤ streamLeft s →
    ∃ t, exec (.run0 value) s = .next t ∧
      t = { s with raster := t.raster, inPos := t.inPos, runLeft := t.runLeft } ∧
      t.inPos.toNat = s.inPos.toNat + 2 ∧ ∀ a, t.raster.read a = s.raster.read a

/-- TAIL raises `TruncatedRead` and touches nothing but `STATUS` and the phase (R166). -/
def Obligations.TailRaisesTruncatedRead : Prop :=
  ∀ s : State, exec .tail s = .next { s with status := 0x36 ||| (s.status &&& 0x08), phase := .idle }

/-- At the end of the stream RLE_DECODE ends normally (R162, R141; R167 draws the same from R162). -/
def Obligations.RleDecodeEndsAtTheEndOfItsStream : Prop :=
  ∀ s : State, s.phase = .rlePairs → s.inPos = s.cfg.inLen →
    exec .rleDecode s = .next { s with status := 0x02 ||| (s.status &&& 0x08), phase := .idle }

/-- What the next instruction is does not depend on any byte of `IN` at or beyond the declared length (the spec's "must
never read past the declared input length", which R168 draws from R161 and R162). -/
def Obligations.DecoderIgnoresInputBeyondItsLength : Prop :=
  ∀ (s : State) (m : Memory), (∀ a, a < s.cfg.inLen.toNat → m.read a = s.inBuf.read a) →
    currentInstr { s with inBuf := m } = currentInstr s

/-- In no state does any instruction write a raster byte at or beyond the latched limit, the start step and its old `CURSOR`
included (R161, R162; R168 draws the same). -/
def Obligations.DecoderWritesOnlyBelowItsLimit : Prop :=
  ∀ (i : Instr) (s t : State), exec i s = .next t →
    ∀ a, s.cfg.decLimit.toNat ≤ a → t.raster.read a = s.raster.read a

/-- RLE_DECODE of a stream of pairs whose runs fit: after at most one step per pair and two more the destination holds the
bytes the runs spell and 0x00 beyond them, `CURSOR` their number and `IN_POS` the offset reached; the command has ended
normally, or with `TruncatedRead` where one byte is left over. Nothing else has changed. (R161, R162, R164 to R167, R172,
R175; the round trip of R174 is the case whose runs spell the whole raster.) -/
def Obligations.RleDecodeSpellsItsRuns : Prop :=
  ∀ (s : State) (pairs : List (Byte × Byte)) (odd : Nat), s.phase = .rleStart → odd ≤ 1 →
    s.cfg.decLimit.toNat ≤ 64000 → s.cfg.inLen.toNat = 2 * pairs.length + odd →
    HoldsAt s.inBuf 0 (pairBytes pairs) → (spelled pairs).length ≤ s.cfg.decLimit.toNat →
    ∃ t, engineRun (pairs.length + 2) s = t ∧
      t = { s with inPos := t.inPos, cursor := t.cursor, raster := t.raster, runLeft := t.runLeft,
                   status := if odd = 0 then 0x02 ||| (s.status &&& 0x08) else 0x36 ||| (s.status &&& 0x08),
                   phase := .idle } ∧
      t.inPos.toNat = 2 * pairs.length ∧ t.cursor.toNat = (spelled pairs).length ∧
      ∀ a, t.raster.read a =
        if a < s.cfg.decLimit.toNat then some ((spelled pairs).getD a 0x00) else s.raster.read a

/-- RLE_DECODE of a stream with a pair that overflows: the destination holds the bytes spelled up to the limit and nothing
beyond it is written, `CURSOR` is the limit, `IN_POS` the offset of the failing pair, the code `DecompressionOverflow`
(R161, R162, R170, R175). -/
def Obligations.RleDecodeStopsAtTheOverflowingPair : Prop :=
  ∀ (s : State) (pairs : List (Byte × Byte)) (count value : Byte), s.phase = .rleStart →
    s.cfg.decLimit.toNat ≤ 64000 → 2 * pairs.length + 2 ≤ s.cfg.inLen.toNat →
    HoldsAt s.inBuf 0 (pairBytes (pairs ++ [(count, value)])) → (spelled pairs).length ≤ s.cfg.decLimit.toNat →
    s.cfg.decLimit.toNat < (spelled pairs).length + count.toNat →
    ∃ t, engineRun (pairs.length + 2) s = t ∧
      t = { s with inPos := t.inPos, cursor := s.cfg.decLimit, raster := t.raster, runLeft := t.runLeft,
                   status := 0x46 ||| (s.status &&& 0x08), phase := .idle } ∧
      t.inPos.toNat = 2 * pairs.length ∧
      ∀ a, t.raster.read a =
        if a < s.cfg.decLimit.toNat then some ((spelled pairs ++ List.replicate count.toNat value).getD a 0x00)
        else s.raster.read a

/-- RLE_DECODE's end state is a function of the length, the limit and the declared bytes: two machines that agree on those
agree, after any number of engine steps, on `STATUS`, the progress registers and the destination, whatever else they hold
(R161, R162; R173 draws the same). -/
def Obligations.RleDecodeDependsOnItsInputAlone : Prop :=
  ∀ (s s' : State) (n : Nat), s.phase = .rleStart → s'.phase = .rleStart → s.status = s'.status →
    s.cfg.inLen = s'.cfg.inLen → s.cfg.decLimit = s'.cfg.decLimit →
    (∀ a, a < s.cfg.inLen.toNat → s.inBuf.read a = s'.inBuf.read a) → 1 ≤ n →
    (engineRun n s).status = (engineRun n s').status ∧ (engineRun n s).phase = (engineRun n s').phase ∧
    (engineRun n s).inPos = (engineRun n s').inPos ∧ (engineRun n s).cursor = (engineRun n s').cursor ∧
    (s.cfg.decLimit.toNat ≤ 64000 →
      ∀ a, a < s.cfg.decLimit.toNat → (engineRun n s).raster.read a = (engineRun n s').raster.read a)

/-! ### PAL_CONVERT (42_palette.md) -/

/-- The start step at legal depths goes on to the first component and touches nothing else; at any other depths it raises
`InvalidArgument` and no `PAL` byte is written (R191). -/
def Obligations.PalStartChecksBothDepths : Prop :=
  ∀ s : State, s.phase = .palStart →
    ((srcDepth s.cfg.palCfg ∈ [4, 6, 8] ∧ dstDepth s.cfg.palCfg ∈ [4, 6, 8]) →
      exec .palConvert s = .next { s with phase := .palComponent 0 }) ∧
    (¬ (srcDepth s.cfg.palCfg ∈ [4, 6, 8] ∧ dstDepth s.cfg.palCfg ∈ [4, 6, 8]) →
      exec .palConvert s = .next { s with status := 0x76 ||| (s.status &&& 0x08), phase := .idle })

/-- A component step stores floor(v·max(dd) / max(ds)) mod 256 at the component's place in the destination bank and leaves
every other byte; the last one ends the command normally (R193, R190). -/
def Obligations.ComponentStepStoresTheRescaledByte : Prop :=
  ∀ (n : Fin 768) (v : Byte) (s : State), s.phase = .palComponent n →
    s.pal.read (768 * (srcBank s.cfg.palCfg).toNat + n.val) = some v →
    ∃ t, exec .palConvert s = .next t ∧
      t = { s with pal := t.pal, phase := t.phase, status := t.status } ∧
      (∀ a, t.pal.read a =
        if a = 768 * (dstBank s.cfg.palCfg).toNat + n.val then
          some (BitVec.ofNat 8
            (v.toNat * (2 ^ (dstDepth s.cfg.palCfg).toNat - 1) / (2 ^ (srcDepth s.cfg.palCfg).toNat - 1)))
        else s.pal.read a) ∧
      (∀ h : n.val + 1 < 768, t.phase = .palComponent ⟨n.val + 1, h⟩ ∧ t.status = s.status) ∧
      (n.val = 767 → t.phase = .idle ∧ t.status = 0x02 ||| (s.status &&& 0x08))

/-- PAL_CONVERT at legal depths takes exactly 769 engine steps and leaves every byte of the destination bank rescaled from
the source bank as it stood before, in place or not, and every other `PAL` byte as it was (R191, R193; R194 and R195 draw
the same). -/
def Obligations.PalConvertRescalesTheWholeBank : Prop :=
  ∀ s : State, s.phase = .palStart → legalDepth (srcDepth s.cfg.palCfg) = true →
    legalDepth (dstDepth s.cfg.palCfg) = true →
    (∀ n, n < 768 → s.pal.read (bankAddr (srcBank s.cfg.palCfg) n) ≠ none) →
    (engineRun 768 s).phase ≠ .idle ∧
    ∃ t, engineRun 769 s = t ∧
      t = { s with pal := t.pal, status := 0x02 ||| (s.status &&& 0x08), phase := .idle } ∧
      (∀ n, n < 768 → t.pal.read (bankAddr (dstBank s.cfg.palCfg) n) =
        (s.pal.read (bankAddr (srcBank s.cfg.palCfg) n)).map
          (convertComponent (srcDepth s.cfg.palCfg) (dstDepth s.cfg.palCfg))) ∧
      (∀ a, (∀ n, n < 768 → a ≠ bankAddr (dstBank s.cfg.palCfg) n) → t.pal.read a = s.pal.read a)

/-- The six directed conversions in the closed forms R198 draws from R192 and R193, and the boundary values of §8. -/
def Obligations.ConversionsHaveTheirClosedForms : Prop :=
  (∀ v : Byte, v.toNat ≤ 15 → (convertComponent 4 6 v).toNat = v.toNat * 21 / 5) ∧
  (∀ v : Byte, v.toNat ≤ 15 → (convertComponent 4 8 v).toNat = v.toNat * 17) ∧
  (∀ v : Byte, v.toNat ≤ 63 → (convertComponent 6 4 v).toNat = v.toNat * 5 / 21) ∧
  (∀ v : Byte, v.toNat ≤ 63 → (convertComponent 6 8 v).toNat = v.toNat * 85 / 21) ∧
  (∀ v : Byte, (convertComponent 8 4 v).toNat = v.toNat / 17) ∧
  (∀ v : Byte, (convertComponent 8 6 v).toNat = v.toNat * 21 / 85)

/-- Rescaling keeps a component within the destination's maximum, maps 0 to 0 and the maximum to the maximum, is monotone,
and is the identity at equal depths, for every pair of legal depths (R192, R193, R197; R199 draws the laws). -/
def Obligations.RescalingIsMonotoneBetweenTheMaxima : Prop :=
  ∀ ds dd : BitVec 4, legalDepth ds = true → legalDepth dd = true →
    convertComponent ds dd 0 = 0 ∧
    (convertComponent ds dd (BitVec.ofNat 8 (depthMax ds))).toNat = depthMax dd ∧
    (∀ v w : Byte, v.toNat ≤ w.toNat → w.toNat ≤ depthMax ds →
      (convertComponent ds dd v).toNat ≤ (convertComponent ds dd w).toNat ∧
      (convertComponent ds dd w).toNat ≤ depthMax dd) ∧
    (∀ v : Byte, convertComponent ds ds v = v)

/-! ### BMP_EMIT (43_bmp.md) -/

/-- The start step of BMP_EMIT sets `OUT_COUNT` to 0. It refuses `W` = 0, `H` = 0 and `W`·`H` > 64000 with `InvalidArgument`,
the sink not called; otherwise it calls `SinkOpen` once, and on `ok` the first byte is next, on `fail` the command ends with
`IOFailure` and no byte is offered (R211, R85). How an answer is drawn, and that opening leaves the bytes the sink's array
holds, are the model's choices (log 10). -/
def Obligations.BmpStartChecksAndOpensTheSink : Prop :=
  ∀ s : State, s.phase = .bmpStart →
    ((s.cfg.bmpW.toNat = 0 ∨ s.cfg.bmpH.toNat = 0 ∨ 64000 < s.cfg.bmpW.toNat * s.cfg.bmpH.toNat) →
      exec .bmpEmit s = .next { s with outCount := 0, status := 0x76 ||| (s.status &&& 0x08), phase := .idle }) ∧
    (0 < s.cfg.bmpW.toNat → 0 < s.cfg.bmpH.toNat → s.cfg.bmpW.toNat * s.cfg.bmpH.toNat ≤ 64000 →
      ∃ t, exec .bmpEmit s = .next t ∧
        t = { s with outCount := 0, sinkOpen := t.sinkOpen, sink := (sinkOpenCall s).2.sink,
                     sinkDraws := (sinkOpenCall s).2.sinkDraws, status := t.status, phase := t.phase } ∧
        ((sinkOpenCall s).1 = true → t.phase = .bmpByte 0 ∧ t.status = s.status) ∧
        ((sinkOpenCall s).1 = false → t.phase = .idle ∧ t.status = 0x56 ||| (s.status &&& 0x08)))

/-- How a sink answers (R85): the standard sink opens always and accepts byte `k` below its capacity; any other sink gives the
next listed answer, used up by that one call, and past its list the free value of the next draw. A call changes nothing but
the answers left, the open state, and byte `k` where it was accepted. The list, the draws and the array kept for every kind
of sink are the model's choices (log 10), as is the open state (log 11). -/
def Obligations.SinkAnswersAreGivenOnceEach : Prop :=
  ∀ (s : State) (k : Nat) (b : Byte),
    (∀ capacity, s.sink = .standard capacity →
      sinkOpenCall s = (true, { s with sinkOpen := true }) ∧
      sinkWriteCall k b s = (decide (k < capacity), { s with out := if k < capacity then s.out.write k b else s.out })) ∧
    (∀ ok rest, s.sink = .drawn (ok :: rest) →
      sinkOpenCall s = (ok, { s with sink := .drawn rest, sinkOpen := ok }) ∧
      sinkWriteCall k b s =
        (ok, { s with sink := .drawn rest, out := if ok = true then s.out.write k b else s.out })) ∧
    (s.sink = .drawn [] →
      sinkOpenCall s =
        (Config.sinkAnswer s.sinkDraws,
          { s with sinkDraws := s.sinkDraws + 1, sinkOpen := Config.sinkAnswer s.sinkDraws }) ∧
      sinkWriteCall k b s =
        (Config.sinkAnswer s.sinkDraws,
          { s with sinkDraws := s.sinkDraws + 1
                   out := if Config.sinkAnswer s.sinkDraws = true then s.out.write k b else s.out }))

/-- A byte the sink accepts, in one `SinkWrite`, is stored as byte `o` of the sink and counted; the next byte follows, and after
the last one the command ends normally (R218, R85). That the array is kept for every kind of sink, with the bytes beyond the
accepted ones as they were, is the model's choice (log 10). -/
def Obligations.AcceptedByteIsCounted : Prop :=
  ∀ (o : Nat) (b : Byte) (s : State), s.phase = .bmpByte o → o < cfgFileSize s → fileByte o s = .ok b →
    (sinkWriteCall o b s).1 = true →
    ∃ t, exec .bmpEmit s = .next t ∧
      t = { s with outCount := t.outCount, out := t.out, sink := (sinkWriteCall o b s).2.sink,
                   sinkDraws := (sinkWriteCall o b s).2.sinkDraws, phase := t.phase, status := t.status } ∧
      t.outCount.toNat = o + 1 ∧
      (∀ a, t.out.read a = if a = o then some b else s.out.read a) ∧
      (o + 1 < cfgFileSize s → t.phase = .bmpByte (o + 1) ∧ t.status = s.status) ∧
      (o + 1 = cfgFileSize s → t.phase = .idle ∧ t.status = 0x02 ||| (s.status &&& 0x08))

/-- A byte the sink refuses, in one `SinkWrite`, ends the command with `IOFailure`, `OUT_COUNT` as it was (R218, R85). The bytes
accepted so far stay (R86); that those beyond them stay too is the model's choice (log 10). -/
def Obligations.RefusedByteEndsTheCommand : Prop :=
  ∀ (o : Nat) (b : Byte) (s : State), s.phase = .bmpByte o → fileByte o s = .ok b →
    (sinkWriteCall o b s).1 = false →
    ∃ t, exec .bmpEmit s = .next t ∧
      t = { s with sink := (sinkWriteCall o b s).2.sink, sinkDraws := (sinkWriteCall o b s).2.sinkDraws,
                   status := 0x56 ||| (s.status &&& 0x08), phase := .idle }

/-- The header fields, read back from their bytes, are the values R213 and R214 give, at every legal width and height and
with `RES_PPM` = 3780, which the spec marks as general knowledge (log 13). -/
def Obligations.HeaderFieldsReadBack : Prop :=
  ∀ w h : Nat, bmpRefused w h = false → w < 65536 → h < 65536 →
    ∃ bytes : List Byte, bytes.length = 54 ∧
      (∀ (o : Nat) (bank : BitVec 1), o < 54 →
        bmpSource Config.resPpm w h bank o = .fixed (bytes.getD o 0)) ∧
      bytes.take 2 = [0x42, 0x4D] ∧
      leValue ((bytes.drop 2).take 4) = 1078 + (w + 3) / 4 * 4 * h ∧
      leValue ((bytes.drop 6).take 2) = 0 ∧ leValue ((bytes.drop 8).take 2) = 0 ∧
      leValue ((bytes.drop 10).take 4) = 1078 ∧ leValue ((bytes.drop 14).take 4) = 40 ∧
      leValue ((bytes.drop 18).take 4) = w ∧ leValue ((bytes.drop 22).take 4) = h ∧
      leValue ((bytes.drop 26).take 2) = 1 ∧ leValue ((bytes.drop 28).take 2) = 8 ∧
      leValue ((bytes.drop 30).take 4) = 0 ∧ leValue ((bytes.drop 34).take 4) = (w + 3) / 4 * 4 * h ∧
      leValue ((bytes.drop 38).take 4) = 3780 ∧ leValue ((bytes.drop 42).take 4) = 3780 ∧
      leValue ((bytes.drop 46).take 4) = 256 ∧ leValue ((bytes.drop 50).take 4) = 0

/-- Where each palette and pixel byte of the file comes from: blue, green, red and 0x00 of each entry in index order (R216),
then the raster rows bottom first, each padded to the stride, every raster address inside `RASTER[0 .. W·H)` (R217). -/
def Obligations.PaletteAndPixelBytesAreInPlace : Prop :=
  ∀ (ppm w h : Nat) (bank : BitVec 1),
    (∀ i, i < 256 →
      bmpSource ppm w h bank (54 + 4 * i) = .fromPal (768 * bank.toNat + 3 * i + 2) ∧
      bmpSource ppm w h bank (55 + 4 * i) = .fromPal (768 * bank.toNat + 3 * i + 1) ∧
      bmpSource ppm w h bank (56 + 4 * i) = .fromPal (768 * bank.toNat + 3 * i) ∧
      bmpSource ppm w h bank (57 + 4 * i) = .fixed 0x00) ∧
    (∀ e j, e < h → j < (w + 3) / 4 * 4 →
      (j < w → bmpSource ppm w h bank (1078 + e * ((w + 3) / 4 * 4) + j) = .fromRaster ((h - 1 - e) * w + j) ∧
        (h - 1 - e) * w + j < w * h) ∧
      (w ≤ j → bmpSource ppm w h bank (1078 + e * ((w + 3) / 4 * 4) + j) = .fixed 0x00))

/-- BMP_EMIT at legal dimensions into the standard sink, its inputs written. Where the file fits, after 1 + `file_size`
steps every byte of it stands in the sink at its offset and the command has ended normally; where it does not, the sink
holds the bytes below its capacity, and the command has ended with `IOFailure` at the first byte refused. Nothing else has
changed (R85, R86, R211, R218; R219 draws the whole file). The last clause, that the bytes of the sink's array beyond the
accepted ones are as they were, is the model's choice (log 10; 93 I3 gives them any value). -/
def Obligations.BmpFileReachesTheSink : Prop :=
  ∀ (s : State) (capacity : Nat), s.phase = .bmpStart → InputsWritten s →
    bmpRefused (cfgWidth s) (cfgHeight s) = false → s.sink = .standard capacity →
    ∃ t k, k = min capacity (cfgFileSize s) ∧
      engineRun (if cfgFileSize s ≤ capacity then 1 + cfgFileSize s else 2 + capacity) s = t ∧
      t = { s with out := t.out, outCount := t.outCount, sinkOpen := t.sinkOpen,
                   status := if cfgFileSize s ≤ capacity then 0x02 ||| (s.status &&& 0x08)
                             else 0x56 ||| (s.status &&& 0x08),
                   phase := .idle } ∧
      t.outCount.toNat = k ∧
      (∀ o, o < k → ∃ b, fileByte o s = .ok b ∧ t.out.read o = some b) ∧
      (∀ a, k ≤ a → t.out.read a = s.out.read a)

/-! ### Errors, reset and the machine as a whole (60_exceptions.md, 70_reset_and_hazards.md) -/

/-- The error entry: `BUSY` 0, `DONE` 1, `ERR` 1, `ERRCODE` the code's number, `OVR` kept, the phase idle, and nothing else
changed (R252, with the numbers of R250). -/
def Obligations.ErrorEntryRecordsTheCode : Prop :=
  (∀ (code : ErrorCode) (s : State),
    ∃ t, raiseError code s = t ∧ t = { s with status := t.status, phase := .idle } ∧
      statusBusy t.status = false ∧ statusDone t.status = true ∧ statusErr t.status = true ∧
      statusErrCode t.status = errorNumber code ∧ statusOvr t.status = statusOvr s.status) ∧
  errorNumber .allocationFailure = 1 ∧ errorNumber .malformedHeader = 2 ∧ errorNumber .truncatedRead = 3 ∧
  errorNumber .decompressionOverflow = 4 ∧ errorNumber .ioFailure = 5 ∧ errorNumber .invalidIndex = 6 ∧
  errorNumber .invalidArgument = 7

/-- The values R55 gives the block at reset, `CMD` and `RASTER_CAP` as a read shows them; nothing is said of `cfg`, which it
leaves unspecified (log 7). -/
def Obligations.ResetGivesTheStatedValues : Prop :=
  State.reset.status = 0 ∧ State.reset.inLen = 0 ∧ State.reset.decLimit = 64000 ∧ State.reset.inPos = 0 ∧
  State.reset.cursor = 0 ∧ State.reset.palCfg = 0x86 ∧ State.reset.bmpW = 320 ∧ State.reset.bmpH = 200 ∧
  State.reset.bmpCfg = 0 ∧ State.reset.outCount = 0 ∧ State.reset.phase = .idle ∧ State.reset.sinkOpen = false ∧
  (∀ sp a, (spaceMem sp State.reset).read a = none) ∧
  busAccess (ldAccess .cmd) State.reset = .next { State.reset with readData := 0 } ∧
  busAccess (ldAccess .rasterCap) State.reset = .next { State.reset with readData := 64000 }

/-- A reset the platform asserts, whatever is running, gives every register its reset value, makes every buffer byte
unwritten and ends the command with no code; the sink keeps the bytes it accepted (R280, R281). -/
def Obligations.PlatformResetForgetsTheBuffers : Prop :=
  ∀ (s : State) (rest : List Turn), s.turns = .reset :: rest →
    ∃ t, step s = .next t ∧ t.status = 0 ∧ t.phase = .idle ∧ t.sinkOpen = false ∧ t.out = s.out ∧
      (∀ sp a, (spaceMem sp t).read a = none) ∧
      t.inLen = 0 ∧ t.decLimit = 64000 ∧ t.inPos = 0 ∧ t.cursor = 0 ∧ t.palCfg = 0x86 ∧ t.bmpW = 320 ∧
      t.bmpH = 200 ∧ t.bmpCfg = 0 ∧ t.outCount = 0

/-- The reset state meets the invariant. -/
def Obligations.ResetMeetsTheInvariant : Prop := MachineInv State.reset

/-- Every step of the machine keeps the invariant: `STATUS` consistent (R26), `BUSY` exactly while a command runs (R50), the
buffers well formed, `IN_POS` even and `CURSOR` within the raster (R33, R34), and the running command where its rules
allow (R168, R171, R191, R211). The spec marks R26, R33, R168 and R171 as drawn from its other rules. -/
def Obligations.EveryStepKeepsTheInvariant : Prop :=
  ∀ s t : State, MachineInv s → step s = .next t → MachineInv t

/-- When the two bytes at `IN_POS` decode to an instruction, the machine's step is `exec` of that instruction, at that
state where no order of moves is laid down, and with the turn taken off where it is the engine's turn; likewise for a
lone byte and the tail (R103, R162; log 1, log 2). -/
def Obligations.StepRunsTheDecodedPair : Prop :=
  (∀ (s : State) (count value : Byte) (i : Instr), s.phase = .rlePairs → 2 ≤ streamLeft s →
    s.inBuf.read s.inPos.toNat = some count → s.inBuf.read (s.inPos.toNat + 1) = some value →
    decode .stream [count, value] = .ok (i, []) →
    (s.turns = [] → step s = exec i s) ∧
    (∀ rest, s.turns = .engine :: rest → step s = exec i { s with turns := rest })) ∧
  (∀ (s : State) (b : Byte) (i : Instr), s.phase = .rlePairs → streamLeft s = 1 →
    decode .stream [b] = .ok (i, []) →
    (s.turns = [] → step s = exec i s) ∧
    (∀ rest, s.turns = .engine :: rest → step s = exec i { s with turns := rest }))

/-- When the host's next access writes a command word to an idle block, the next step accepts it, and the step after that is
`exec` of the instruction the word decodes to (R140, R255; log 1, log 2). -/
def Obligations.StepRunsTheAcceptedCommand : Prop :=
  ∀ (s : State) (w : Word) (i : Instr) (rest : List HostOp), s.phase = .idle → statusBusy s.status = false →
    s.turns = [] → s.inbox = .access (stAccess .cmd w) :: rest → decode .cmd32 (bytesOfWord w) = .ok (i, []) →
    ∃ t, step s = .next t ∧ t = acceptCommand w { s with inbox := rest } ∧ step t = exec i t

/-- While a command runs, the engine's step is `exec` of that command in each of its phases, at that state where no order of
moves is laid down and with the turn taken off where it is the engine's turn; at the end of its stream RLE_DECODE runs its
own end step (R140, R160, R167, R190, R210; log 1, log 2). -/
def Obligations.StepRunsTheRunningCommand : Prop :=
  ∀ (s : State) (i : Instr),
    ((s.phase = .nop ∧ i = .nop) ∨ (∃ w, s.phase = .reserved w ∧ i = .reservedCmd w) ∨
      (s.phase = .rleStart ∧ i = .rleDecode) ∨ (s.phase = .rlePairs ∧ streamLeft s = 0 ∧ i = .rleDecode) ∨
      (s.phase = .palStart ∧ i = .palConvert) ∨ (∃ n, s.phase = .palComponent n ∧ i = .palConvert) ∨
      (s.phase = .bmpStart ∧ i = .bmpEmit) ∨ (∃ o, s.phase = .bmpByte o ∧ i = .bmpEmit)) →
    (s.turns = [] → step s = exec i s) ∧
    (∀ rest, s.turns = .engine :: rest → step s = exec i { s with turns := rest })

/-- Whose turn it is, that agent moves: the host makes its next access, the engine its next step, `wait` reads `STATUS` and
stays while `BUSY` = 1; an agent with nothing to do changes only the order of moves (R255, R265, R110; log 2). -/
def Obligations.TheAgentWhoseTurnItIsMoves : Prop :=
  ∀ (s : State) (rest : List Turn),
    (s.turns = .engine :: rest → step s = engineStep { s with turns := rest }) ∧
    (∀ a ops, s.turns = .host :: rest → s.inbox = .access a :: ops →
      step s = busAccess a { s with turns := rest, inbox := ops }) ∧
    (∀ ops, s.turns = .host :: rest → s.inbox = .wait :: ops →
      step s = .next { s with
        turns := rest, readData := s.status.setWidth 32,
        inbox := if statusBusy s.status = true then .wait :: ops else ops }) ∧
    (s.turns = .host :: rest → s.inbox = [] → step s = .next { s with turns := rest }) ∧
    (s.turns = .engine :: rest → s.phase = .idle → step s = .next { s with turns := rest })

/-- An engine step writes no configuration register, not the input buffer and nothing of the host; the raster is written
only by RLE_DECODE and its pairs, the palette only by PAL_CONVERT, the sink and `OUT_COUNT` only by BMP_EMIT, `IN_POS`
and `CURSOR` only by RLE_DECODE and its pairs (R32, R34, R35, R46, R51, R72, R75). -/
def Obligations.EachInstructionKeepsToItsOwnState : Prop :=
  ∀ (i : Instr) (s t : State), exec i s = .next t →
    (t.inLen = s.inLen ∧ t.decLimit = s.decLimit ∧ t.palCfg = s.palCfg ∧ t.bmpW = s.bmpW ∧ t.bmpH = s.bmpH ∧
      t.bmpCfg = s.bmpCfg ∧ t.cfg = s.cfg ∧ t.inBuf = s.inBuf ∧ t.readData = s.readData ∧ t.inbox = s.inbox ∧
      t.turns = s.turns ∧ t.accepted = s.accepted ∧ t.readDraws = s.readDraws) ∧
    (i ≠ .rleDecode → i.format ≠ .stream → t.raster = s.raster ∧ t.inPos = s.inPos ∧ t.cursor = s.cursor) ∧
    (i ≠ .palConvert → t.pal = s.pal) ∧
    (i ≠ .bmpEmit → t.out = s.out ∧ t.outCount = s.outCount ∧ t.sinkOpen = s.sinkOpen ∧ t.sink = s.sink)

/-- A block that is idle stays idle, and its `STATUS` and error code stay, until the host writes `CMD` or the platform
resets it (R256, R265, R282). -/
def Obligations.IdleBlockWaitsForACommand : Prop :=
  ∀ s t : State, s.phase = .idle → step s = .next t →
    (t.phase = .idle ∧ t.status = s.status) ∨
    (∃ w ops, s.inbox = .access (stAccess .cmd w) :: ops ∧
      (t.status = 0x01 ∨ t.status = s.status ||| 0x08)) ∨
    (∃ rest, s.turns = .reset :: rest ∧ t.status = 0)

/-- From any state that meets the invariant, with the bytes the running command reads written as R283 asks, the engine alone
ends the command, without a model fault, within the steps R148 bounds (the spec draws R148, R169 and R194 from its step
rules). -/
def Obligations.EveryCommandEndsWithinItsBound : Prop :=
  ∀ s : State, MachineInv s → InputsWritten s → (engineRun (stepsLeft s) s).phase = .idle
end

