-- ==== Sys2Proof/Laws/Memory.lean ====
section
/-! SUPPORT. The laws of byte memories: what a read sees after a fill or a write, and that both keep the canonical form. -/

namespace Sys2Proof.Machine

@[simp] theorem Memory.read_nil (a : Nat) : Memory.read [] a = none := rfl

theorem Memory.read_cons (c : Host.Cell) (m : Memory) (a : Nat) :
    Memory.read (c :: m) a = if c.1 = a then some c.2 else Memory.read m a := by
  by_cases h : c.1 = a <;> simp [Memory.read, h]

theorem Memory.read_append (m m' : Memory) (a : Nat) :
    Memory.read (m ++ m') a = (Memory.read m a).or (Memory.read m' a) := by
  simp only [Memory.read, List.find?_append]
  cases m.find? (fun c => c.1 == a) <;> simp

/-- Keeping the cells whose address meets `p` keeps the reads at those addresses and loses the others. -/
theorem Memory.read_filter (p : Nat → Bool) (m : Memory) (a : Nat) :
    Memory.read (m.filter (fun c => p c.1)) a = if p a = true then Memory.read m a else none := by
  induction m with
  | nil => simp
  | cons c m ih =>
    by_cases hc : p c.1 = true <;> by_cases ha : c.1 = a
    · subst ha; simp [hc, Memory.read_cons]
    · simp [hc, Memory.read_cons, ha, ih]
    · subst ha; simp [hc, ih]
    · simp [hc, Memory.read_cons, ha, ih]

theorem Memory.read_block (lo n : Nat) (b : Byte) (a : Nat) :
    Memory.read ((List.range' lo n).map (fun x => (x, b))) a = if lo ≤ a ∧ a < lo + n then some b else none := by
  induction n generalizing lo with
  | zero => simp
  | succ n ih =>
    simp only [List.range'_succ, List.map_cons, Memory.read_cons, ih]
    by_cases h : lo = a
    · subst h; simp
    · simp only [h, if_false]
      by_cases h' : lo + 1 ≤ a ∧ a < lo + 1 + n
      · rw [if_pos h', if_pos ⟨by omega, by omega⟩]
      · rw [if_neg h', if_neg (by omega)]

/-- What a read sees after a fill: the filled value inside the range, what stood there before outside it. -/
theorem Memory.read_fill (m : Memory) (lo n : Nat) (b : Byte) (a : Nat) :
    (m.fill lo n b).read a = if lo ≤ a ∧ a < lo + n then some b else m.read a := by
  have h1 := Memory.read_filter (fun x => decide (x < lo)) m a
  have h2 := Memory.read_filter (fun x => decide (lo + n ≤ x)) m a
  simp only [decide_eq_true_eq] at h1 h2
  rw [Memory.fill, Memory.read_append, Memory.read_append, Memory.read_block, h1, h2]
  by_cases ha : a < lo
  · have hb : ¬ lo + n ≤ a := by omega
    have hc : ¬ (lo ≤ a ∧ a < lo + n) := by omega
    simp [ha, hb, hc]
  · by_cases hb : a < lo + n
    · have hc : lo ≤ a ∧ a < lo + n := by omega
      simp [ha, hc]
    · have hc : ¬ (lo ≤ a ∧ a < lo + n) := by omega
      have hd : lo + n ≤ a := by omega
      simp [ha, hc, hd]

/-- Read after write: the written byte at its address, every other byte as before. -/
theorem Memory.read_write (m : Memory) (x : Nat) (b : Byte) (a : Nat) :
    (m.write x b).read a = if a = x then some b else m.read a := by
  rw [Memory.write, Memory.read_fill]
  by_cases h : a = x
  · rw [if_pos h, if_pos ⟨by omega, by omega⟩]
  · rw [if_neg h, if_neg (by omega)]

theorem Memory.read_write_same (m : Memory) (x : Nat) (b : Byte) : (m.write x b).read x = some b := by
  rw [Memory.read_write, if_pos rfl]

/-- A fill keeps the canonical form. -/
theorem Memory.wf_fill {m : Memory} (h : m.wf) (lo n : Nat) (b : Byte) : (m.fill lo n b).wf := by
  have hb : Memory.wf ((List.range' lo n).map (fun x => (x, b))) := by
    simp only [Memory.wf, List.pairwise_map]
    exact List.pairwise_lt_range'
  simp only [Memory.wf, Memory.fill, List.pairwise_append, List.mem_append, List.mem_filter, List.mem_map,
    List.mem_range'_1, decide_eq_true_eq]
  refine ⟨⟨h.filter _, hb, ?_⟩, h.filter _, ?_⟩
  · rintro x ⟨-, hx⟩ y ⟨z, ⟨hz, -⟩, rfl⟩
    exact Nat.lt_of_lt_of_le hx hz
  · rintro x (⟨-, hx⟩ | ⟨z, ⟨-, hz⟩, rfl⟩) y ⟨-, hy⟩
    · omega
    · exact Nat.lt_of_lt_of_le hz hy

theorem Memory.wf_write {m : Memory} (h : m.wf) (a : Nat) (b : Byte) : (m.write a b).wf := Memory.wf_fill h a 1 b

/-- Every memory of the reset state is in canonical form. -/
theorem State.reset_memories_wf :
    State.reset.inBuf.wf ∧ State.reset.raster.wf ∧ State.reset.pal.wf ∧ State.reset.out.wf := by
  refine ⟨?_, ?_, ?_, ?_⟩ <;> exact List.Pairwise.nil

/-- A fill within a space lists only addresses of that space. -/
theorem Memory.below_fill {m : Memory} {size lo n : Nat} (h : m.below size) (hn : lo + n ≤ size) (b : Byte) :
    (m.fill lo n b).below size := by
  intro c hc
  simp only [Memory.fill, List.mem_append, List.mem_filter, List.mem_map, List.mem_range'_1] at hc
  rcases hc with (⟨hc, -⟩ | ⟨z, ⟨-, hz⟩, rfl⟩) | ⟨hc, -⟩
  · exact h c hc
  · show z < size
    omega
  · exact h c hc

theorem Memory.below_write {m : Memory} {size a : Nat} (h : m.below size) (ha : a < size) (b : Byte) :
    (m.write a b).below size := Memory.below_fill h ha b

/-- A byte that is read is listed, so it lies below any bound on the listed addresses. -/
theorem Memory.lt_of_read {m : Memory} {size a : Nat} {b : Byte} (h : m.below size) (hr : m.read a = some b) :
    a < size := by
  simp only [Memory.read, Option.map_eq_some_iff] at hr
  obtain ⟨c, hc, -⟩ := hr
  have := List.find?_some hc
  simp only [beq_iff_eq] at this
  exact this ▸ h c (List.mem_of_find?_eq_some hc)

theorem Memory.read_eq_none_of_lt {m : Memory} {a : Nat} (h : ∀ c ∈ m, a < c.1) : Memory.read m a = none := by
  induction m with
  | nil => rfl
  | cons c m ih =>
    rw [Memory.read_cons, if_neg (by have := h c (by simp); omega)]
    exact ih (fun d hd => h d (by simp [hd]))

/-- Two memories in canonical form with the same reads are the same data. -/
theorem Memory.ext {m m' : Memory} (h : m.wf) (h' : m'.wf) (heq : ∀ a, m.read a = m'.read a) : m = m' := by
  induction m generalizing m' with
  | nil =>
    cases m' with
    | nil => rfl
    | cons d m' => have := heq d.1; simp [Memory.read_cons] at this
  | cons c m ih =>
    cases m' with
    | nil => have := heq c.1; simp [Memory.read_cons] at this
    | cons d m' =>
      rw [Memory.wf, List.pairwise_cons] at h h'
      have hcd : c.1 = d.1 := by
        by_contra hne
        rcases Nat.lt_or_gt_of_ne hne with hlt | hlt
        · have := heq c.1
          rw [Memory.read_cons, if_pos rfl, Memory.read_cons, if_neg (by omega),
            Memory.read_eq_none_of_lt (fun x hx => Nat.lt_trans hlt (h'.1 x hx))] at this
          simp at this
        · have := heq d.1
          rw [Memory.read_cons, if_neg (by omega), Memory.read_eq_none_of_lt (fun x hx => Nat.lt_trans hlt (h.1 x hx)),
            Memory.read_cons, if_pos rfl] at this
          simp at this
      have hv : c.2 = d.2 := by
        have := heq c.1
        rw [Memory.read_cons, if_pos rfl, Memory.read_cons, if_pos hcd.symm] at this
        simpa using this
      have htail : m = m' := by
        refine ih h.2 h'.2 (fun a => ?_)
        by_cases hac : a ≤ c.1
        · rw [Memory.read_eq_none_of_lt (fun x hx => Nat.lt_of_le_of_lt hac (h.1 x hx)),
            Memory.read_eq_none_of_lt (fun x hx => Nat.lt_of_le_of_lt (hcd ▸ hac) (h'.1 x hx))]
        · have := heq a
          rwa [Memory.read_cons, if_neg (by omega), Memory.read_cons, if_neg (by omega)] at this
      rw [htail, Prod.ext hcd hv]

end Sys2Proof.Machine
end

