-- ==== Sys2Proof/Laws/State.lean ====
section
/-! SUPPORT. One lemma per field per update of the operations every meaning is written over, each true by rfl, so that no
proof unfolds a record update. -/

namespace Sys2Proof.Machine

@[simp] theorem normalEnd_status (s : State) : (normalEnd s).status = statusNormalEnd s.status := rfl
@[simp] theorem normalEnd_inLen (s : State) : (normalEnd s).inLen = s.inLen := rfl
@[simp] theorem normalEnd_decLimit (s : State) : (normalEnd s).decLimit = s.decLimit := rfl
@[simp] theorem normalEnd_inPos (s : State) : (normalEnd s).inPos = s.inPos := rfl
@[simp] theorem normalEnd_cursor (s : State) : (normalEnd s).cursor = s.cursor := rfl
@[simp] theorem normalEnd_palCfg (s : State) : (normalEnd s).palCfg = s.palCfg := rfl
@[simp] theorem normalEnd_bmpW (s : State) : (normalEnd s).bmpW = s.bmpW := rfl
@[simp] theorem normalEnd_bmpH (s : State) : (normalEnd s).bmpH = s.bmpH := rfl
@[simp] theorem normalEnd_bmpCfg (s : State) : (normalEnd s).bmpCfg = s.bmpCfg := rfl
@[simp] theorem normalEnd_outCount (s : State) : (normalEnd s).outCount = s.outCount := rfl
@[simp] theorem normalEnd_inBuf (s : State) : (normalEnd s).inBuf = s.inBuf := rfl
@[simp] theorem normalEnd_raster (s : State) : (normalEnd s).raster = s.raster := rfl
@[simp] theorem normalEnd_pal (s : State) : (normalEnd s).pal = s.pal := rfl
@[simp] theorem normalEnd_phase (s : State) : (normalEnd s).phase = .idle := rfl
@[simp] theorem normalEnd_cfg (s : State) : (normalEnd s).cfg = s.cfg := rfl
@[simp] theorem normalEnd_runLeft (s : State) : (normalEnd s).runLeft = s.runLeft := rfl
@[simp] theorem normalEnd_sinkOpen (s : State) : (normalEnd s).sinkOpen = s.sinkOpen := rfl
@[simp] theorem normalEnd_out (s : State) : (normalEnd s).out = s.out := rfl
@[simp] theorem normalEnd_sink (s : State) : (normalEnd s).sink = s.sink := rfl
@[simp] theorem normalEnd_sinkDraws (s : State) : (normalEnd s).sinkDraws = s.sinkDraws := rfl
@[simp] theorem normalEnd_accepted (s : State) : (normalEnd s).accepted = s.accepted := rfl
@[simp] theorem normalEnd_readDraws (s : State) : (normalEnd s).readDraws = s.readDraws := rfl
@[simp] theorem normalEnd_readData (s : State) : (normalEnd s).readData = s.readData := rfl
@[simp] theorem normalEnd_inbox (s : State) : (normalEnd s).inbox = s.inbox := rfl
@[simp] theorem normalEnd_turns (s : State) : (normalEnd s).turns = s.turns := rfl

@[simp] theorem raiseError_status (code : ErrorCode) (s : State) : (raiseError code s).status = statusError code s.status := rfl
@[simp] theorem raiseError_inLen (code : ErrorCode) (s : State) : (raiseError code s).inLen = s.inLen := rfl
@[simp] theorem raiseError_decLimit (code : ErrorCode) (s : State) : (raiseError code s).decLimit = s.decLimit := rfl
@[simp] theorem raiseError_inPos (code : ErrorCode) (s : State) : (raiseError code s).inPos = s.inPos := rfl
@[simp] theorem raiseError_cursor (code : ErrorCode) (s : State) : (raiseError code s).cursor = s.cursor := rfl
@[simp] theorem raiseError_palCfg (code : ErrorCode) (s : State) : (raiseError code s).palCfg = s.palCfg := rfl
@[simp] theorem raiseError_bmpW (code : ErrorCode) (s : State) : (raiseError code s).bmpW = s.bmpW := rfl
@[simp] theorem raiseError_bmpH (code : ErrorCode) (s : State) : (raiseError code s).bmpH = s.bmpH := rfl
@[simp] theorem raiseError_bmpCfg (code : ErrorCode) (s : State) : (raiseError code s).bmpCfg = s.bmpCfg := rfl
@[simp] theorem raiseError_outCount (code : ErrorCode) (s : State) : (raiseError code s).outCount = s.outCount := rfl
@[simp] theorem raiseError_inBuf (code : ErrorCode) (s : State) : (raiseError code s).inBuf = s.inBuf := rfl
@[simp] theorem raiseError_raster (code : ErrorCode) (s : State) : (raiseError code s).raster = s.raster := rfl
@[simp] theorem raiseError_pal (code : ErrorCode) (s : State) : (raiseError code s).pal = s.pal := rfl
@[simp] theorem raiseError_phase (code : ErrorCode) (s : State) : (raiseError code s).phase = .idle := rfl
@[simp] theorem raiseError_cfg (code : ErrorCode) (s : State) : (raiseError code s).cfg = s.cfg := rfl
@[simp] theorem raiseError_runLeft (code : ErrorCode) (s : State) : (raiseError code s).runLeft = s.runLeft := rfl
@[simp] theorem raiseError_sinkOpen (code : ErrorCode) (s : State) : (raiseError code s).sinkOpen = s.sinkOpen := rfl
@[simp] theorem raiseError_out (code : ErrorCode) (s : State) : (raiseError code s).out = s.out := rfl
@[simp] theorem raiseError_sink (code : ErrorCode) (s : State) : (raiseError code s).sink = s.sink := rfl
@[simp] theorem raiseError_sinkDraws (code : ErrorCode) (s : State) : (raiseError code s).sinkDraws = s.sinkDraws := rfl
@[simp] theorem raiseError_accepted (code : ErrorCode) (s : State) : (raiseError code s).accepted = s.accepted := rfl
@[simp] theorem raiseError_readDraws (code : ErrorCode) (s : State) : (raiseError code s).readDraws = s.readDraws := rfl
@[simp] theorem raiseError_readData (code : ErrorCode) (s : State) : (raiseError code s).readData = s.readData := rfl
@[simp] theorem raiseError_inbox (code : ErrorCode) (s : State) : (raiseError code s).inbox = s.inbox := rfl
@[simp] theorem raiseError_turns (code : ErrorCode) (s : State) : (raiseError code s).turns = s.turns := rfl

@[simp] theorem dropCommand_status (s : State) : (dropCommand s).status = statusDropped s.status := rfl
@[simp] theorem dropCommand_inLen (s : State) : (dropCommand s).inLen = s.inLen := rfl
@[simp] theorem dropCommand_decLimit (s : State) : (dropCommand s).decLimit = s.decLimit := rfl
@[simp] theorem dropCommand_inPos (s : State) : (dropCommand s).inPos = s.inPos := rfl
@[simp] theorem dropCommand_cursor (s : State) : (dropCommand s).cursor = s.cursor := rfl
@[simp] theorem dropCommand_palCfg (s : State) : (dropCommand s).palCfg = s.palCfg := rfl
@[simp] theorem dropCommand_bmpW (s : State) : (dropCommand s).bmpW = s.bmpW := rfl
@[simp] theorem dropCommand_bmpH (s : State) : (dropCommand s).bmpH = s.bmpH := rfl
@[simp] theorem dropCommand_bmpCfg (s : State) : (dropCommand s).bmpCfg = s.bmpCfg := rfl
@[simp] theorem dropCommand_outCount (s : State) : (dropCommand s).outCount = s.outCount := rfl
@[simp] theorem dropCommand_inBuf (s : State) : (dropCommand s).inBuf = s.inBuf := rfl
@[simp] theorem dropCommand_raster (s : State) : (dropCommand s).raster = s.raster := rfl
@[simp] theorem dropCommand_pal (s : State) : (dropCommand s).pal = s.pal := rfl
@[simp] theorem dropCommand_phase (s : State) : (dropCommand s).phase = s.phase := rfl
@[simp] theorem dropCommand_cfg (s : State) : (dropCommand s).cfg = s.cfg := rfl
@[simp] theorem dropCommand_runLeft (s : State) : (dropCommand s).runLeft = s.runLeft := rfl
@[simp] theorem dropCommand_sinkOpen (s : State) : (dropCommand s).sinkOpen = s.sinkOpen := rfl
@[simp] theorem dropCommand_out (s : State) : (dropCommand s).out = s.out := rfl
@[simp] theorem dropCommand_sink (s : State) : (dropCommand s).sink = s.sink := rfl
@[simp] theorem dropCommand_sinkDraws (s : State) : (dropCommand s).sinkDraws = s.sinkDraws := rfl
@[simp] theorem dropCommand_accepted (s : State) : (dropCommand s).accepted = s.accepted := rfl
@[simp] theorem dropCommand_readDraws (s : State) : (dropCommand s).readDraws = s.readDraws := rfl
@[simp] theorem dropCommand_readData (s : State) : (dropCommand s).readData = s.readData := rfl
@[simp] theorem dropCommand_inbox (s : State) : (dropCommand s).inbox = s.inbox := rfl
@[simp] theorem dropCommand_turns (s : State) : (dropCommand s).turns = s.turns := rfl

@[simp] theorem acceptCommand_status (w : Word) (s : State) : (acceptCommand w s).status = statusAccepted := rfl
@[simp] theorem acceptCommand_inLen (w : Word) (s : State) : (acceptCommand w s).inLen = s.inLen := rfl
@[simp] theorem acceptCommand_decLimit (w : Word) (s : State) : (acceptCommand w s).decLimit = s.decLimit := rfl
@[simp] theorem acceptCommand_inPos (w : Word) (s : State) : (acceptCommand w s).inPos = s.inPos := rfl
@[simp] theorem acceptCommand_cursor (w : Word) (s : State) : (acceptCommand w s).cursor = s.cursor := rfl
@[simp] theorem acceptCommand_palCfg (w : Word) (s : State) : (acceptCommand w s).palCfg = s.palCfg := rfl
@[simp] theorem acceptCommand_bmpW (w : Word) (s : State) : (acceptCommand w s).bmpW = s.bmpW := rfl
@[simp] theorem acceptCommand_bmpH (w : Word) (s : State) : (acceptCommand w s).bmpH = s.bmpH := rfl
@[simp] theorem acceptCommand_bmpCfg (w : Word) (s : State) : (acceptCommand w s).bmpCfg = s.bmpCfg := rfl
@[simp] theorem acceptCommand_outCount (w : Word) (s : State) : (acceptCommand w s).outCount = s.outCount := rfl
@[simp] theorem acceptCommand_inBuf (w : Word) (s : State) : (acceptCommand w s).inBuf = s.inBuf := rfl
@[simp] theorem acceptCommand_raster (w : Word) (s : State) : (acceptCommand w s).raster = s.raster := rfl
@[simp] theorem acceptCommand_pal (w : Word) (s : State) : (acceptCommand w s).pal = s.pal := rfl
@[simp] theorem acceptCommand_phase (w : Word) (s : State) : (acceptCommand w s).phase = commandPhase w := rfl
@[simp] theorem acceptCommand_cfg (w : Word) (s : State) : (acceptCommand w s).cfg = latchedCfg s := rfl
@[simp] theorem acceptCommand_runLeft (w : Word) (s : State) : (acceptCommand w s).runLeft = s.runLeft := rfl
@[simp] theorem acceptCommand_sinkOpen (w : Word) (s : State) : (acceptCommand w s).sinkOpen = s.sinkOpen := rfl
@[simp] theorem acceptCommand_out (w : Word) (s : State) : (acceptCommand w s).out = s.out := rfl
@[simp] theorem acceptCommand_sink (w : Word) (s : State) : (acceptCommand w s).sink = s.sink := rfl
@[simp] theorem acceptCommand_sinkDraws (w : Word) (s : State) : (acceptCommand w s).sinkDraws = s.sinkDraws := rfl
@[simp] theorem acceptCommand_accepted (w : Word) (s : State) : (acceptCommand w s).accepted = progress s := rfl
@[simp] theorem acceptCommand_readDraws (w : Word) (s : State) : (acceptCommand w s).readDraws = s.readDraws := rfl
@[simp] theorem acceptCommand_readData (w : Word) (s : State) : (acceptCommand w s).readData = s.readData := rfl
@[simp] theorem acceptCommand_inbox (w : Word) (s : State) : (acceptCommand w s).inbox = s.inbox := rfl
@[simp] theorem acceptCommand_turns (w : Word) (s : State) : (acceptCommand w s).turns = s.turns := rfl

@[simp] theorem platformReset_status (s : State) : (platformReset s).status = State.reset.status := rfl
@[simp] theorem platformReset_inLen (s : State) : (platformReset s).inLen = State.reset.inLen := rfl
@[simp] theorem platformReset_decLimit (s : State) : (platformReset s).decLimit = State.reset.decLimit := rfl
@[simp] theorem platformReset_inPos (s : State) : (platformReset s).inPos = State.reset.inPos := rfl
@[simp] theorem platformReset_cursor (s : State) : (platformReset s).cursor = State.reset.cursor := rfl
@[simp] theorem platformReset_palCfg (s : State) : (platformReset s).palCfg = State.reset.palCfg := rfl
@[simp] theorem platformReset_bmpW (s : State) : (platformReset s).bmpW = State.reset.bmpW := rfl
@[simp] theorem platformReset_bmpH (s : State) : (platformReset s).bmpH = State.reset.bmpH := rfl
@[simp] theorem platformReset_bmpCfg (s : State) : (platformReset s).bmpCfg = State.reset.bmpCfg := rfl
@[simp] theorem platformReset_outCount (s : State) : (platformReset s).outCount = State.reset.outCount := rfl
@[simp] theorem platformReset_inBuf (s : State) : (platformReset s).inBuf = State.reset.inBuf := rfl
@[simp] theorem platformReset_raster (s : State) : (platformReset s).raster = State.reset.raster := rfl
@[simp] theorem platformReset_pal (s : State) : (platformReset s).pal = State.reset.pal := rfl
@[simp] theorem platformReset_phase (s : State) : (platformReset s).phase = State.reset.phase := rfl
@[simp] theorem platformReset_cfg (s : State) : (platformReset s).cfg = State.reset.cfg := rfl
@[simp] theorem platformReset_runLeft (s : State) : (platformReset s).runLeft = State.reset.runLeft := rfl
@[simp] theorem platformReset_sinkOpen (s : State) : (platformReset s).sinkOpen = State.reset.sinkOpen := rfl
@[simp] theorem platformReset_out (s : State) : (platformReset s).out = s.out := rfl
@[simp] theorem platformReset_sink (s : State) : (platformReset s).sink = s.sink := rfl
@[simp] theorem platformReset_sinkDraws (s : State) : (platformReset s).sinkDraws = s.sinkDraws := rfl
@[simp] theorem platformReset_accepted (s : State) : (platformReset s).accepted = State.reset.accepted := rfl
@[simp] theorem platformReset_readDraws (s : State) : (platformReset s).readDraws = s.readDraws := rfl
@[simp] theorem platformReset_readData (s : State) : (platformReset s).readData = s.readData := rfl
@[simp] theorem platformReset_inbox (s : State) : (platformReset s).inbox = s.inbox := rfl
@[simp] theorem platformReset_turns (s : State) : (platformReset s).turns = s.turns := rfl

/-- A fill of one space leaves every other space's memory as it was. -/
theorem spaceMem_memFill (sp sp' : Space) (lo n : Nat) (b : Byte) (s : State) :
    spaceMem sp' (memFill sp lo n b s) = if sp' = sp then (spaceMem sp s).fill lo n b else spaceMem sp' s := by
  cases sp <;> cases sp' <;> rfl

theorem memFill_input (lo n : Nat) (b : Byte) (s : State) :
    memFill .input lo n b s = { s with inBuf := s.inBuf.fill lo n b } := rfl

theorem memFill_raster (lo n : Nat) (b : Byte) (s : State) :
    memFill .raster lo n b s = { s with raster := s.raster.fill lo n b } := rfl

theorem memFill_pal (lo n : Nat) (b : Byte) (s : State) :
    memFill .pal lo n b s = { s with pal := s.pal.fill lo n b } := rfl

/-- A read answers the byte that stands there. -/
theorem memRead_ok_iff (sp : Space) (a : Nat) (s : State) (b : Byte) :
    memRead sp a s = .ok b ↔ (spaceMem sp s).read a = some b := by
  unfold memRead
  cases (spaceMem sp s).read a <;> simp

/-- A read of a byte nothing has written is the model fault, and only that. -/
theorem memRead_error_iff (sp : Space) (a : Nat) (s : State) (f : Fault) :
    memRead sp a s = .error f ↔ (spaceMem sp s).read a = none ∧ f = .unwrittenRead sp a := by
  unfold memRead
  cases (spaceMem sp s).read a <;> simp [eq_comm]

/-- The phase of each command word (R140). -/
theorem commandPhase_eq (w : Word) :
    commandPhase w =
      if w = 0 then .nop else if w = 1 then .rleStart else if w = 2 then .palStart
      else if w = 3 then .bmpStart else .reserved w := by
  unfold commandPhase decodeCommand
  split_ifs <;> simp_all

/-- Acceptance always leaves a command running (R50, R140). -/
theorem commandPhase_ne_idle (w : Word) : commandPhase w ≠ .idle := by
  rw [commandPhase_eq]; split_ifs <;> simp

/-- A drawn answer moves only the environment's account of the sink. -/
theorem drawSinkAnswer_cases (answers : List Bool) (s : State) :
    ∃ ok sink draws, drawSinkAnswer answers s = (ok, { s with sink := sink, sinkDraws := draws }) := by
  cases answers with
  | nil => exact ⟨Config.sinkAnswer s.sinkDraws, s.sink, s.sinkDraws + 1, rfl⟩
  | cons ok rest => exact ⟨ok, .drawn rest, s.sinkDraws, rfl⟩

theorem sinkAccepts_cases (k : Nat) (s : State) :
    ∃ ok sink draws, sinkAccepts k s = (ok, { s with sink := sink, sinkDraws := draws }) := by
  unfold sinkAccepts
  split
  · exact ⟨_, s.sink, s.sinkDraws, rfl⟩
  · exact drawSinkAnswer_cases _ s

/-- Everything a write offer can do: it is accepted and the byte stored, or refused and nothing stored; either way only
the sink's own fields move. -/
theorem sinkWriteCall_cases (k : Nat) (b : Byte) (s : State) :
    ∃ sink draws, sinkWriteCall k b s = (true, { s with sink := sink, sinkDraws := draws, out := s.out.write k b }) ∨
      sinkWriteCall k b s = (false, { s with sink := sink, sinkDraws := draws }) := by
  obtain ⟨ok, sink, draws, h⟩ := sinkAccepts_cases k s
  refine ⟨sink, draws, ?_⟩
  unfold sinkWriteCall
  cases ok <;> simp [h]

/-- Everything an open can do: only the sink's own fields move, and its open state is the answer. -/
theorem sinkOpenCall_cases (s : State) :
    ∃ ok sink draws, sinkOpenCall s = (ok, { s with sink := sink, sinkDraws := draws, sinkOpen := ok }) := by
  unfold sinkOpenCall
  split
  · exact ⟨true, s.sink, s.sinkDraws, rfl⟩
  · rename_i answers _
    obtain ⟨ok, sink, draws, h⟩ := drawSinkAnswer_cases answers s
    exact ⟨ok, sink, draws, by simp [h]⟩

/-- The standard sink accepts the byte offered as number `k` exactly while `k` is below its capacity (R85). -/
theorem sinkWriteCall_standard {s : State} {capacity : Nat} (h : s.sink = .standard capacity) (k : Nat) (b : Byte) :
    sinkWriteCall k b s = if k < capacity then (true, { s with out := s.out.write k b }) else (false, s) := by
  simp only [sinkWriteCall, sinkAccepts, h, decide_eq_true_eq]

end Sys2Proof.Machine
end

