-- ==== Sys2Proof/Laws/Bmp.lean ====
section
/-! SUPPORT. What the steps of BMP_EMIT do, once each, and the sizes of the file. -/

namespace Sys2Proof.Machine

theorem bmpStart_refused {s : State} (h : bmpRefused (cfgWidth s) (cfgHeight s) = true) :
    bmpStart s = raiseError .invalidArgument { s with outCount := 0 } := by
  simp only [bmpStart, h, if_true]

theorem bmpStart_opens {s : State} (h : bmpRefused (cfgWidth s) (cfgHeight s) = false) :
    bmpStart s =
      if (sinkOpenCall { s with outCount := 0 }).1 = true then
        { (sinkOpenCall { s with outCount := 0 }).2 with phase := .bmpByte 0 }
      else raiseError .ioFailure (sinkOpenCall { s with outCount := 0 }).2 := by
  simp only [bmpStart, h]; rfl

/-- Opening the sink neither reads nor writes `OUT_COUNT`, so clearing it first changes nothing of the answer. -/
theorem sinkOpenCall_outCount (n : Word) (s : State) :
    sinkOpenCall { s with outCount := n } = ((sinkOpenCall s).1, { (sinkOpenCall s).2 with outCount := n }) := by
  obtain ⟨⟩ := s
  rename_i sink _ _ _ _ _ _
  rcases sink with _ | _ | _ <;> rfl

/-- Everything a start step can do (R211). -/
theorem bmpStart_cases (s : State) :
    (bmpRefused (cfgWidth s) (cfgHeight s) = true ∧
      bmpStart s = raiseError .invalidArgument { s with outCount := 0 }) ∨
    (bmpRefused (cfgWidth s) (cfgHeight s) = false ∧ ∃ sink draws,
      bmpStart s =
        { s with outCount := 0, sink := sink, sinkDraws := draws, sinkOpen := true, phase := .bmpByte 0 } ∨
      bmpStart s =
        raiseError .ioFailure { s with outCount := 0, sink := sink, sinkDraws := draws, sinkOpen := false }) := by
  cases h : bmpRefused (cfgWidth s) (cfgHeight s) with
  | true => exact .inl ⟨rfl, bmpStart_refused h⟩
  | false =>
    obtain ⟨ok, sink, draws, ho⟩ := sinkOpenCall_cases { s with outCount := 0 }
    refine .inr ⟨rfl, sink, draws, ?_⟩
    rw [bmpStart_opens h, ho]
    cases ok
    · exact .inr rfl
    · exact .inl rfl

theorem bmpByteStep_ok {s : State} {o : Nat} {b : Byte} (h : fileByte o s = .ok b) :
    bmpByteStep o s =
      if (sinkWriteCall o b s).1 = true then .next (bmpAdvance o (sinkWriteCall o b s).2)
      else .next (raiseError .ioFailure (sinkWriteCall o b s).2) := by
  simp only [bmpByteStep, h]

/-- Everything a byte step can do (R80, R218). -/
theorem bmpByteStep_cases (o : Nat) (s : State) :
    (∃ b sink draws, fileByte o s = .ok b ∧
      (bmpByteStep o s =
          .next (bmpAdvance o { s with sink := sink, sinkDraws := draws, out := s.out.write o b }) ∨
        bmpByteStep o s = .next (raiseError .ioFailure { s with sink := sink, sinkDraws := draws }))) ∨
    (∃ f, fileByte o s = .error f ∧ bmpByteStep o s = .fault f) := by
  cases h : fileByte o s with
  | error f => exact .inr ⟨f, rfl, by simp only [bmpByteStep, h]⟩
  | ok b =>
    obtain ⟨sink, draws, hw⟩ := sinkWriteCall_cases o b s
    refine .inl ⟨b, sink, draws, rfl, ?_⟩
    rw [bmpByteStep_ok h]
    rcases hw with hw | hw <;> rw [hw]
    · exact .inl rfl
    · exact .inr rfl

theorem bmpAdvance_more {s : State} {o : Nat} (h : o + 1 < cfgFileSize s) :
    bmpAdvance o s = { s with outCount := BitVec.ofNat 32 (o + 1), phase := .bmpByte (o + 1) } := by
  have h' : o + 1 < cfgFileSize { s with outCount := BitVec.ofNat 32 (o + 1) } := h
  simp only [bmpAdvance, h, if_true]

theorem bmpAdvance_last {s : State} {o : Nat} (h : ¬ o + 1 < cfgFileSize s) :
    bmpAdvance o s = normalEnd { s with outCount := BitVec.ofNat 32 (o + 1) } := by
  simp only [bmpAdvance, h, if_false]

theorem bmpRefused_eq_false_iff (w h : Nat) :
    bmpRefused w h = false ↔ 0 < w ∧ 0 < h ∧ w * h ≤ Config.rasterCap := by
  simp only [bmpRefused, Bool.or_eq_false_iff, beq_eq_false_iff_ne, decide_eq_false_iff_not]
  omega

/-- `stride` is the smallest multiple of 4 at or above the width (R212). -/
theorem bmpStride_spec (w : Nat) : w ≤ bmpStride w ∧ bmpStride w < w + 4 ∧ bmpStride w % 4 = 0 := by
  unfold bmpStride; omega

/-- No legal file is larger than the largest of R220. -/
theorem bmpFileSize_le {w h : Nat} (hr : bmpRefused w h = false) : bmpFileSize w h ≤ 257078 := by
  obtain ⟨hw, hh, hwh⟩ := (bmpRefused_eq_false_iff w h).mp hr
  obtain ⟨-, h2, -⟩ := bmpStride_spec w
  have h3 : bmpStride w ≤ 4 * w := by
    unfold bmpStride; omega
  have h4 : bmpStride w * h ≤ 4 * (w * h) := by
    calc bmpStride w * h ≤ 4 * w * h := Nat.mul_le_mul_right h h3
      _ = 4 * (w * h) := Nat.mul_assoc 4 w h
  simp only [bmpFileSize, bmpImageSize, bmpPixOff, Config.rasterCap] at *
  omega

end Sys2Proof.Machine
end

