-- ==== Sys2Proof/Laws/Bus.lean ====
section
/-! SUPPORT. What the host's accesses do, once each form, and the range of a draw. -/

namespace Sys2Proof.Machine

/-- Every register is found at its own offset (R21). -/
@[simp] theorem regAt_regOffset (r : Reg) : regAt (regOffset r) = some r := by cases r <;> rfl

/-- One row of the offset table. -/
theorem regAt_row {p : Prop} [Decidable p] {a r : Reg} {o : Option Reg} (h : (if p then some a else o) = some r) :
    (p ∧ a = r) ∨ o = some r := by
  split at h
  · exact .inl ⟨‹p›, Option.some.inj h⟩
  · exact .inr h

/-- A register is found at its own offset only (R21). -/
theorem eq_regOffset_of_regAt {a : Nat} {r : Reg} (h : regAt a = some r) : a = regOffset r := by
  unfold regAt at h
  iterate 12
    rcases regAt_row h with ⟨rfl, rfl⟩ | h
    · rfl
  cases h

/-- `st NAME, w` is a write of that register (R110, R145). -/
theorem busAccess_st (r : Reg) (w : Word) (s : State) :
    busAccess (stAccess r w) s = .next (writeRegister (some r) w s) := by
  have h : windowForm (stAccess r w) = true := by cases r <;> simp [windowForm, stAccess, regOffset, Config.regWidth,
    Config.windowBytes]
  simp only [busAccess, windowAccess, stAccess, regAt_regOffset] at h ⊢
  rw [if_pos h]

/-- `ld NAME` is a read of that register (R110, R146). -/
theorem busAccess_ld (r : Reg) (s : State) : busAccess (ldAccess r) s = .next (readRegister (some r) s) := by
  have h : windowForm (ldAccess r) = true := by cases r <;> simp [windowForm, ldAccess, regOffset, Config.regWidth,
    Config.windowBytes]
  simp only [busAccess, windowAccess, ldAccess, regAt_regOffset] at h ⊢
  rw [if_pos h]

/-- Everything a register read can change. -/
theorem readRegister_frame (r : Option Reg) (s : State) :
    readRegister r s =
      { s with readData := (readRegister r s).readData, readDraws := (readRegister r s).readDraws } := by
  unfold readRegister readProgress
  repeat' split
  all_goals rfl

/-- A byte write by the host to an address that exists, while the block is idle (R147). -/
theorem busAccess_sb {sp : Space} {a : Nat} {b : Byte} {s : State} (hi : statusBusy s.status = false)
    (ha : a < spaceSize sp) : busAccess (sbAccess sp a b) s = .next (memWrite sp a b s) := by
  simp [busAccess, sbAccess, bufferAccess, Nat.not_le.mpr ha, hi]

/-- A byte read by the host (R147). -/
theorem busAccess_lb {sp : Space} {a : Nat} {b : Byte} {s : State} (hi : statusBusy s.status = false)
    (ha : a < spaceSize sp) (hr : (spaceMem sp s).read a = some b) :
    busAccess (lbAccess sp a) s = .next { s with readData := b.setWidth 32 } := by
  simp [busAccess, lbAccess, bufferAccess, Nat.not_le.mpr ha, hi, (memRead_ok_iff sp a s b).mpr hr]

/-- A draw lies between its bounds. -/
theorem drawBetween_mem (a b draw : Nat) : min a b ≤ drawBetween a b draw ∧ drawBetween a b draw ≤ max a b := by
  unfold drawBetween
  have h := Nat.mod_lt draw (Nat.succ_pos (max a b - min a b))
  have h2 : min a b ≤ max a b := Nat.le_trans (Nat.min_le_left a b) (Nat.le_max_left a b)
  simp only [Nat.succ_eq_add_one] at h
  omega

/-- Every value between the bounds is some draw's, so the model admits each answer R37 admits. -/
theorem drawBetween_onto {a b v : Nat} (hlo : min a b ≤ v) (hhi : v ≤ max a b) :
    drawBetween a b (v - min a b) = v := by
  unfold drawBetween
  rw [Nat.mod_eq_of_lt (by omega)]
  omega

end Sys2Proof.Machine
end

