-- ==== Sys2Proof/Laws/Rle.lean ====
section
/-! SUPPORT. What the steps of RLE_DECODE do, once each: the start step, a pair that fits, a pair that overflows, and the item
the stream holds. -/

namespace Sys2Proof.Machine

theorem rleStart_refused {s : State} (h : Config.rasterCap < s.cfg.decLimit.toNat) :
    rleStart s = raiseError .invalidArgument { s with inPos := 0, cursor := 0, runLeft := 0 } := by
  simp only [rleStart, h, if_true]

theorem rleStart_clears {s : State} (h : s.cfg.decLimit.toNat ≤ Config.rasterCap) :
    rleStart s =
      { s with
        inPos := 0, cursor := 0, runLeft := 0, raster := s.raster.fill 0 s.cfg.decLimit.toNat 0x00,
        phase := .rlePairs } := by
  simp only [rleStart, Nat.not_lt.mpr h, if_false, memFill]

/-- A pair whose count fits the room left (R164, R165). -/
theorem pairStep_fits {s : State} {count value : Byte} (h : count.toNat ≤ room s) :
    pairStep count value s =
      { s with
        raster := s.raster.fill s.cursor.toNat count.toNat value
        cursor := BitVec.ofNat 16 (s.cursor.toNat + count.toNat)
        runLeft := 0
        inPos := BitVec.ofNat 16 (s.inPos.toNat + 2) } := by
  have hr : ¬ room s < count.toNat := by omega
  simp [pairStep, writeRun, memFill, hr, Nat.min_eq_left h]

/-- A pair that does not fit: what fits is written, then the error (R170). -/
theorem pairStep_overflows {s : State} {count value : Byte} (h : room s < count.toNat) :
    pairStep count value s =
      raiseError .decompressionOverflow
        { s with
          raster := s.raster.fill s.cursor.toNat (room s) value
          cursor := BitVec.ofNat 16 (s.cursor.toNat + room s)
          runLeft := BitVec.ofNat 8 (count.toNat - room s) } := by
  simp only [pairStep, writeRun, memFill, h, if_true, Nat.min_eq_right (Nat.le_of_lt h)]

/-- The cursor after a pair is where it says, without wrapping: it stays within 16 bits. -/
theorem cursor_add_toNat {s : State} {n : Nat} (h : n ≤ room s) :
    (BitVec.ofNat 16 (s.cursor.toNat + n)).toNat = s.cursor.toNat + n := by
  have h1 := s.cfg.decLimit.isLt
  have h2 := s.cursor.isLt
  unfold room at h
  rw [BitVec.toNat_ofNat, Nat.mod_eq_of_lt (by omega)]

/-- `IN_POS` never wraps while a pair is left (R33). -/
theorem inPos_add_toNat {s : State} (h : 2 ≤ streamLeft s) :
    (BitVec.ofNat 16 (s.inPos.toNat + 2)).toNat = s.inPos.toNat + 2 := by
  have h1 := s.cfg.inLen.isLt
  unfold streamLeft at h
  rw [BitVec.toNat_ofNat, Nat.mod_eq_of_lt (by omega)]

theorem streamItem_done {s : State} (h : streamLeft s = 0) : streamItem s = .ok .done := by
  simp only [streamItem, h, if_true]

theorem streamItem_lone {s : State} (h : streamLeft s = 1) : streamItem s = .ok .lone := by
  simp [streamItem, h]

theorem streamItem_pair {s : State} {count value : Byte} (h : 2 ≤ streamLeft s)
    (hc : s.inBuf.read s.inPos.toNat = some count) (hv : s.inBuf.read (s.inPos.toNat + 1) = some value) :
    streamItem s = .ok (.pair count value) := by
  have h0 : ¬ streamLeft s = 0 := by omega
  have h1 : ¬ streamLeft s = 1 := by omega
  simp only [streamItem, h0, h1, if_false, (memRead_ok_iff .input s.inPos.toNat s count).mpr hc,
    (memRead_ok_iff .input (s.inPos.toNat + 1) s value).mpr hv]

/-- Everything the stream can hold at `IN_POS` (R103). -/
theorem streamItem_cases (s : State) :
    (streamLeft s = 0 ∧ streamItem s = .ok .done) ∨ (streamLeft s = 1 ∧ streamItem s = .ok .lone) ∨
    (2 ≤ streamLeft s ∧ ∃ count value, s.inBuf.read s.inPos.toNat = some count ∧
      s.inBuf.read (s.inPos.toNat + 1) = some value ∧ streamItem s = .ok (.pair count value)) ∨
    (2 ≤ streamLeft s ∧ ∃ a, streamItem s = .error (.unwrittenRead .input a) ∧ s.inBuf.read a = none ∧
      s.inPos.toNat ≤ a ∧ a ≤ s.inPos.toNat + 1) := by
  by_cases h0 : streamLeft s = 0
  · exact .inl ⟨h0, streamItem_done h0⟩
  by_cases h1 : streamLeft s = 1
  · exact .inr (.inl ⟨h1, streamItem_lone h1⟩)
  have h2 : 2 ≤ streamLeft s := by omega
  right; right
  cases hc : s.inBuf.read s.inPos.toNat with
  | none =>
    refine .inr ⟨h2, s.inPos.toNat, ?_, hc, by omega, by omega⟩
    simp only [streamItem, h0, h1, if_false, (memRead_error_iff .input s.inPos.toNat s _).mpr ⟨hc, rfl⟩]
  | some count =>
    cases hv : s.inBuf.read (s.inPos.toNat + 1) with
    | none =>
      refine .inr ⟨h2, s.inPos.toNat + 1, ?_, hv, by omega, by omega⟩
      simp only [streamItem, h0, h1, if_false, (memRead_ok_iff .input s.inPos.toNat s count).mpr hc,
        (memRead_error_iff .input (s.inPos.toNat + 1) s _).mpr ⟨hv, rfl⟩]
    | some value => exact .inl ⟨h2, count, value, rfl, rfl, streamItem_pair h2 hc hv⟩

/-- A decoded pair runs as the pair step of R162, whichever of the two forms it takes. -/
theorem exec_decodePair (count value : Byte) (s : State) :
    exec (decodePair count value) s = .next (pairStep count value s) := by
  unfold decodePair
  split
  · subst_vars; rfl
  · rfl

/-- RLE_DECODE itself, once decoding has begun, does what running the decoded item does (R162). -/
theorem exec_rleDecode_pairs {s : State} (h : s.phase = .rlePairs) : exec .rleDecode s = rleContinue s := by
  simp only [exec, execRleDecode, h]

/-- The engine's step while pairs are decoded is R162. -/
theorem engineStep_rlePairs {s : State} (h : s.phase = .rlePairs) : engineStep s = rleContinue s := by
  rcases streamItem_cases s with ⟨-, hi⟩ | ⟨-, hi⟩ | ⟨-, count, value, -, -, hi⟩ | ⟨-, a, hi, -⟩
  · simp only [engineStep, currentInstr, h, streamInstr, hi, Except.map, exec_rleDecode_pairs h]
  · simp only [engineStep, currentInstr, h, streamInstr, hi, Except.map, rleContinue]; rfl
  · simp only [engineStep, currentInstr, h, streamInstr, hi, Except.map, rleContinue, exec_decodePair]
  · simp only [engineStep, currentInstr, h, streamInstr, hi, Except.map, rleContinue]

end Sys2Proof.Machine
end

