-- ==== Sys2Proof/Laws/Engine.lean ====
section
/-! SUPPORT. The engine step in each phase, and how a run of the engine unfolds. -/

namespace Sys2Proof.Machine

/-- The step of a NOP (R143). -/
theorem engineStep_nop {s : State} (h : s.phase = .nop) : engineStep s = .next (normalEnd s) := by
  simp [engineStep, currentInstr, h, exec, execNop]

/-- The step of a reserved command (R144). -/
theorem engineStep_reserved {s : State} {w : Word} (h : s.phase = .reserved w) :
    engineStep s = .next (raiseError .invalidArgument s) := by
  simp [engineStep, currentInstr, h, exec, execReservedCmd]

/-- The start step of RLE_DECODE (R161). -/
theorem engineStep_rleStart {s : State} (h : s.phase = .rleStart) : engineStep s = .next (rleStart s) := by
  simp [engineStep, currentInstr, h, exec, execRleDecode]

/-- The start step of PAL_CONVERT (R191). -/
theorem engineStep_palStart {s : State} (h : s.phase = .palStart) : engineStep s = .next (palStart s) := by
  simp [engineStep, currentInstr, h, exec, execPalConvert]

/-- A component step of PAL_CONVERT (R193). -/
theorem engineStep_palComponent {s : State} {n : Fin 768} (h : s.phase = .palComponent n) :
    engineStep s = palComponentStep n s := by
  simp [engineStep, currentInstr, h, exec, execPalConvert]

/-- The start step of BMP_EMIT (R211). -/
theorem engineStep_bmpStart {s : State} (h : s.phase = .bmpStart) : engineStep s = .next (bmpStart s) := by
  simp [engineStep, currentInstr, h, exec, execBmpEmit]

/-- A byte step of BMP_EMIT (R218). -/
theorem engineStep_bmpByte {s : State} {o : Nat} (h : s.phase = .bmpByte o) : engineStep s = bmpByteStep o s := by
  simp [engineStep, currentInstr, h, exec, execBmpEmit]

/-- An idle engine does nothing (R265). -/
theorem engineStep_idle {s : State} (h : s.phase = .idle) : engineStep s = .next s := by
  simp [engineStep, currentInstr, h]

/-- A run of the engine stays where the engine is idle. -/
theorem engineRun_idle {s : State} (n : Nat) (h : s.phase = .idle) : engineRun n s = s := by
  cases n with
  | zero => rfl
  | succ n => rw [engineRun, h]

/-- A run of the engine goes on from the state its step gives. -/
theorem engineRun_succ {s t : State} (n : Nat) (hp : s.phase ≠ .idle) (h : engineStep s = .next t) :
    engineRun (n + 1) s = engineRun n t := by
  rw [engineRun]
  split
  · contradiction
  · rw [h]

/-- A run of the engine stops where its step meets a model fault. -/
theorem engineRun_fault {s : State} {f : Fault} (n : Nat) (h : engineStep s = .fault f) : engineRun n s = s := by
  cases n with
  | zero => rfl
  | succ n => rw [engineRun]; split <;> simp [h]

/-- The size of the file a latched configuration asks for fits `OUT_COUNT`. -/
theorem cfgFileSize_lt (s : State) : cfgFileSize s < 2 ^ 32 := by
  have h1 := s.cfg.bmpW.isLt
  have h2 := s.cfg.bmpH.isLt
  have h3 : bmpStride s.cfg.bmpW.toNat ≤ 65536 := by unfold bmpStride; omega
  have h4 : bmpStride s.cfg.bmpW.toNat * s.cfg.bmpH.toNat ≤ 65536 * 65535 := Nat.mul_le_mul h3 (by omega)
  simp only [cfgFileSize, bmpFileSize, bmpImageSize, cfgWidth, cfgHeight, bmpPixOff]
  omega

end Sys2Proof.Machine
end

