-- ==== Sys2Proof/Laws/Flags.lean ====
section
/-! SUPPORT. What each event leaves in the fields of `STATUS` (R25), and that each keeps the invariants of R26. -/

namespace Sys2Proof.Machine

/-- Only bit 3 of the old `STATUS` reaches a command's end. -/
theorem and_ovr_eq (st : BitVec 8) : st &&& 0x08 = if statusOvr st = true then 0x08 else 0x00 := by
  revert st; decide

@[simp] theorem statusBusy_accepted : statusBusy statusAccepted = true := by decide

@[simp] theorem statusBusy_normalEnd (st : BitVec 8) : statusBusy (statusNormalEnd st) = false := by
  unfold statusNormalEnd; rw [and_ovr_eq]; split <;> decide

@[simp] theorem statusBusy_error (code : ErrorCode) (st : BitVec 8) : statusBusy (statusError code st) = false := by
  unfold statusError; rw [and_ovr_eq]; cases code <;> split <;> decide

@[simp] theorem statusBusy_dropped (st : BitVec 8) : statusBusy (statusDropped st) = statusBusy st := by
  revert st; decide

@[simp] theorem statusErrCode_error (code : ErrorCode) (st : BitVec 8) :
    statusErrCode (statusError code st) = errorNumber code := by
  unfold statusError; rw [and_ovr_eq]; cases code <;> split <;> decide

@[simp] theorem statusOvr_error (code : ErrorCode) (st : BitVec 8) :
    statusOvr (statusError code st) = statusOvr st := by
  unfold statusError; rw [and_ovr_eq]; cases code <;> split <;> simp_all <;> decide

theorem statusInv_accepted : StatusInv statusAccepted := by decide

theorem statusInv_normalEnd (st : BitVec 8) : StatusInv (statusNormalEnd st) := by
  unfold statusNormalEnd; rw [and_ovr_eq]; split <;> decide

/-- The codes the block raises keep R26; the three of R251 would not be shown codes. -/
theorem statusInv_error {code : ErrorCode} (h : shownCode (errorNumber code) = true) (st : BitVec 8) :
    StatusInv (statusError code st) := by
  unfold statusError; rw [and_ovr_eq]; cases code <;> revert h <;> split <;> decide

theorem statusInv_dropped {st : BitVec 8} (h : StatusInv st) : StatusInv (statusDropped st) := by
  revert st; decide

end Sys2Proof.Machine
end

