-- ==== Sys2Proof/Laws/Palette.lean ====
section
/-! SUPPORT. What the steps of PAL_CONVERT do, once each. -/

namespace Sys2Proof.Machine

theorem palStart_legal {s : State} (hs : legalDepth (srcDepth s.cfg.palCfg) = true)
    (hd : legalDepth (dstDepth s.cfg.palCfg) = true) : palStart s = { s with phase := .palComponent 0 } := by
  simp [palStart, hs, hd]

theorem palStart_refused {s : State}
    (h : ¬ (legalDepth (srcDepth s.cfg.palCfg) = true ∧ legalDepth (dstDepth s.cfg.palCfg) = true)) :
    palStart s = raiseError .invalidArgument s := by
  rw [palStart, if_neg (by simpa using h)]

theorem storeComponent_eq (n : Nat) (v : Byte) (s : State) :
    storeComponent n v s =
      { s with
        pal := s.pal.write (bankAddr (dstBank s.cfg.palCfg) n)
          (convertComponent (srcDepth s.cfg.palCfg) (dstDepth s.cfg.palCfg) v) } := rfl

/-- A component step is an answer exactly where its source byte was written (R80, R193). -/
theorem palComponentStep_ok {s : State} {n : Fin 768} {v : Byte}
    (h : s.pal.read (bankAddr (srcBank s.cfg.palCfg) n.val) = some v) :
    palComponentStep n s = .next (palAdvance n (storeComponent n.val v s)) := by
  simp only [palComponentStep, (memRead_ok_iff .pal _ s v).mpr h]

theorem palComponentStep_cases (n : Fin 768) (s : State) :
    (∃ v, s.pal.read (bankAddr (srcBank s.cfg.palCfg) n.val) = some v ∧
      palComponentStep n s = .next (palAdvance n (storeComponent n.val v s))) ∨
    palComponentStep n s = .fault (.unwrittenRead .pal (bankAddr (srcBank s.cfg.palCfg) n.val)) := by
  cases h : s.pal.read (bankAddr (srcBank s.cfg.palCfg) n.val) with
  | some v => exact .inl ⟨v, rfl, palComponentStep_ok h⟩
  | none => exact .inr (by simp only [palComponentStep, (memRead_error_iff .pal _ s _).mpr ⟨h, rfl⟩])

theorem palAdvance_more {n : Fin 768} (h : n.val + 1 < 768) (s : State) :
    palAdvance n s = { s with phase := .palComponent ⟨n.val + 1, h⟩ } := by
  simp only [palAdvance, h, dite_true]

theorem palAdvance_last {n : Fin 768} (h : ¬ n.val + 1 < 768) (s : State) : palAdvance n s = normalEnd s := by
  simp only [palAdvance, h, dite_false]

theorem bankAddr_lt (b : BitVec 1) {n : Nat} (h : n < 768) : bankAddr b n < Config.palCap := by
  have := b.isLt
  simp only [bankAddr, Config.bankBytes, Config.palCap]; omega

/-- Two bytes of banks share an address only if they are the same byte of the same bank (R74, R76). -/
theorem bankAddr_inj {b b' : BitVec 1} {n n' : Nat} (h : n < 768) (h' : n' < 768) :
    bankAddr b n = bankAddr b' n' ↔ b = b' ∧ n = n' := by
  have h1 := b.isLt
  have h2 := b'.isLt
  simp only [bankAddr, Config.bankBytes]
  constructor
  · intro he
    refine ⟨BitVec.eq_of_toNat_eq (by omega), by omega⟩
  · rintro ⟨rfl, rfl⟩; rfl

end Sys2Proof.Machine
end

