-- ==== Sys2Proof/Laws/PerInstr.lean ====
section
/-! SUPPORT. Statements made one lemma per instruction. The family `Encoding` is about the bytes of an instruction: their
number is its format's, and decoding them consumes them all and stays in the format. -/

namespace Sys2Proof.Laws

/-- The bytes an instruction occupies: four for a command word (R106), two for a pair (R100), one for the tail (R103). -/
def encodedBytes : Instr → Nat
  | .nop => 4
  | .rleDecode => 4
  | .palConvert => 4
  | .bmpEmit => 4
  | .reservedCmd _ => 4
  | .run0 _ => 2
  | .run _ _ => 2
  | .tail => 1

end Sys2Proof.Laws

/-- The encoding of a well-formed instruction has the length of its format, which is the opcode table's width in bytes, and
no shorter part of it is that instruction. -/
def Sys2Proof.Laws.Encoding.Statement (i : Sys2Proof.Instr) : Prop :=
  i.wellFormed = true →
    (Sys2Proof.encode i).length = Sys2Proof.Laws.encodedBytes i ∧
    8 * Sys2Proof.Laws.encodedBytes i = i.tableBits ∧
    ∀ n, n < Sys2Proof.Laws.encodedBytes i → ∀ rest,
      Sys2Proof.decode i.format ((Sys2Proof.encode i).take n) ≠ .ok (i, rest)

/-- NOP (R107). -/
theorem Sys2Proof.Laws.Encoding.nop : Sys2Proof.Laws.Encoding.Statement .nop := by
  refine fun _ => ⟨rfl, rfl, fun n hn rest => ?_⟩
  simp only [Sys2Proof.Laws.encodedBytes] at hn
  interval_cases n <;> simp [Sys2Proof.encode, Sys2Proof.bytesOfWord, Sys2Proof.decode, Sys2Proof.Instr.format]

/-- RLE_DECODE (R107). -/
theorem Sys2Proof.Laws.Encoding.rleDecode : Sys2Proof.Laws.Encoding.Statement .rleDecode := by
  refine fun _ => ⟨rfl, rfl, fun n hn rest => ?_⟩
  simp only [Sys2Proof.Laws.encodedBytes] at hn
  interval_cases n <;> simp [Sys2Proof.encode, Sys2Proof.bytesOfWord, Sys2Proof.decode, Sys2Proof.Instr.format]

/-- PAL_CONVERT (R107). -/
theorem Sys2Proof.Laws.Encoding.palConvert : Sys2Proof.Laws.Encoding.Statement .palConvert := by
  refine fun _ => ⟨rfl, rfl, fun n hn rest => ?_⟩
  simp only [Sys2Proof.Laws.encodedBytes] at hn
  interval_cases n <;> simp [Sys2Proof.encode, Sys2Proof.bytesOfWord, Sys2Proof.decode, Sys2Proof.Instr.format]

/-- BMP_EMIT (R107). -/
theorem Sys2Proof.Laws.Encoding.bmpEmit : Sys2Proof.Laws.Encoding.Statement .bmpEmit := by
  refine fun _ => ⟨rfl, rfl, fun n hn rest => ?_⟩
  simp only [Sys2Proof.Laws.encodedBytes] at hn
  interval_cases n <;> simp [Sys2Proof.encode, Sys2Proof.bytesOfWord, Sys2Proof.decode, Sys2Proof.Instr.format]

/-- The reserved command words (R108). -/
theorem Sys2Proof.Laws.Encoding.reservedCmd (w : Sys2Proof.Word) :
    Sys2Proof.Laws.Encoding.Statement (.reservedCmd w) := by
  refine fun _ => ⟨rfl, rfl, fun n hn rest => ?_⟩
  simp only [Sys2Proof.Laws.encodedBytes] at hn
  interval_cases n <;> simp [Sys2Proof.encode, Sys2Proof.bytesOfWord, Sys2Proof.decode, Sys2Proof.Instr.format]

/-- RUN0 (R102). -/
theorem Sys2Proof.Laws.Encoding.run0 (value : Sys2Proof.Byte) : Sys2Proof.Laws.Encoding.Statement (.run0 value) := by
  refine fun _ => ⟨rfl, rfl, fun n hn rest => ?_⟩
  simp only [Sys2Proof.Laws.encodedBytes] at hn
  interval_cases n <;> simp [Sys2Proof.encode, Sys2Proof.decode, Sys2Proof.Instr.format]

/-- RUN (R102). -/
theorem Sys2Proof.Laws.Encoding.run (count value : Sys2Proof.Byte) :
    Sys2Proof.Laws.Encoding.Statement (.run count value) := by
  refine fun _ => ⟨rfl, rfl, fun n hn rest => ?_⟩
  simp only [Sys2Proof.Laws.encodedBytes] at hn
  interval_cases n <;> simp [Sys2Proof.encode, Sys2Proof.decode, Sys2Proof.Instr.format]

/-- TAIL (R103). -/
theorem Sys2Proof.Laws.Encoding.tail : Sys2Proof.Laws.Encoding.Statement .tail := by
  refine fun _ => ⟨rfl, rfl, fun n hn rest => ?_⟩
  simp only [Sys2Proof.Laws.encodedBytes] at hn
  interval_cases n; simp [Sys2Proof.encode, Sys2Proof.decode, Sys2Proof.Instr.format]
end

