-- ==== Sys2Proof/Tests/Slice0.lean ====
section
/-! SUPPORT. Tests of single steps, each with its expected result from spec/95_test_vectors.md or from the rule its comment
cites, and for every obligation with hypotheses a witness that meets them. -/

namespace Sys2Proof.Tests

open Sys2Proof Sys2Proof.Machine

/-- The state a result goes on with; the reset state where it does not go on. -/
def after (r : Result) : State :=
  match r with
  | .next s => s
  | .fault _ => State.reset
  | .refused _ => State.reset

/-- Whether a result goes on. -/
def goesOn (r : Result) : Bool :=
  match r with
  | .next _ => true
  | .fault _ => false
  | .refused _ => false

/-- The fault a result stops with. -/
def stopsWith (r : Result) : Option Fault :=
  match r with
  | .next _ => none
  | .fault f => some f
  | .refused _ => none

/-- Cells of consecutive addresses. -/
def cells (lo : Nat) (bytes : List Byte) : Memory := (List.range' lo bytes.length).zip bytes

/-- The reset state with a standard sink of 2000 bytes and the raster sentinel of the derived vectors. -/
def idle : State :=
  { State.reset with sink := .standard 2000, raster := Memory.fill [] 0 16 0xCC }

/-- A command running in a phase. -/
def running (ph : Phase) : State := { idle with status := 0x01, phase := ph }

/-- RLE_DECODE running past its start step, with a stream and a limit, at a position and a cursor. -/
def decoding (bytes : List Byte) (limit pos cursor : BitVec 16) : State :=
  { running .rlePairs with
    inBuf := cells 0 bytes
    inPos := pos
    cursor := cursor
    cfg := { idle.cfg with inLen := BitVec.ofNat 16 bytes.length, decLimit := limit } }

/-- RLE_DECODE before its start step. -/
def decodeStart (bytes : List Byte) (limit : BitVec 16) : State := { decoding bytes limit 0 0 with phase := .rleStart }

/-- PAL_CONVERT before the step of a component, both banks written with one value. -/
def converting (palCfg : BitVec 10) (v : Byte) (ph : Phase) : State :=
  { running ph with pal := Memory.fill [] 0 1536 v, cfg := { idle.cfg with palCfg := palCfg } }

/-- PAL_CONVERT with only the byte at one address written. -/
def convertingAt (palCfg : BitVec 10) (a : Nat) (v : Byte) (ph : Phase) : State :=
  { running ph with pal := [(a, v)], cfg := { idle.cfg with palCfg := palCfg } }

/-- BMP_EMIT of an image of w by h whose raster bytes count up, at a phase, into a standard sink. -/
def emitting (w h : BitVec 16) (capacity : Nat) (ph : Phase) : State :=
  { running ph with
    raster := cells 0 [0x00, 0x01, 0x02, 0x03, 0x04, 0x05, 0x06, 0x07]
    pal := Memory.fill [] 0 1536 0x3F
    sink := .standard capacity
    sinkOpen := true
    cfg := { idle.cfg with bmpW := w, bmpH := h } }

/-! ### WellFormed: an ill-formed term for each check -/

/-- A reserved command that is one of the four command words is refused (R107, R108). -/
theorem test_wellFormed_refuses_reserved :
    ∀ w : Word, w = 0 ∨ w = 1 ∨ w = 2 ∨ w = 3 → (Instr.reservedCmd w).wellFormed = false := by
  rintro w (rfl | rfl | rfl | rfl) <;> decide

/-- A RUN of count 0 is refused (R102). -/
theorem test_wellFormed_refuses_run_of_zero : (Instr.run 0x00 0x7F).wellFormed = false := by decide

/-! ### Decoding: words written bit by bit from 30_encoding.md -/

/-- The command words of R107, OP in bits 3:0 of the first byte. -/
theorem test_decode_commands :
    decode .cmd32 [0b00000000, 0b00000000, 0b00000000, 0b00000000] = .ok (.nop, []) ∧
    decode .cmd32 [0b00000001, 0b00000000, 0b00000000, 0b00000000] = .ok (.rleDecode, []) ∧
    decode .cmd32 [0b00000010, 0b00000000, 0b00000000, 0b00000000] = .ok (.palConvert, []) ∧
    decode .cmd32 [0b00000011, 0b00000000, 0b00000000, 0b00000000] = .ok (.bmpEmit, []) := by
  refine ⟨?_, ?_, ?_, ?_⟩ <;> rfl

/-- Reserved words of R108: OP 4, OP 15, and OP 1 with the lowest or the highest reserved bit set. -/
theorem test_decode_reserved :
    decode .cmd32 [0b00000100, 0, 0, 0] = .ok (.reservedCmd 0x00000004, []) ∧
    decode .cmd32 [0b00001111, 0, 0, 0] = .ok (.reservedCmd 0x0000000F, []) ∧
    decode .cmd32 [0b00010001, 0, 0, 0] = .ok (.reservedCmd 0x00000011, []) ∧
    decode .cmd32 [0b00000001, 0, 0, 0b10000000] = .ok (.reservedCmd 0x80000001, []) := by
  refine ⟨?_, ?_, ?_, ?_⟩ <;> rfl

/-- The stream of R100's example, a RUN0 and a tail. -/
theorem test_decode_stream :
    decodeStream [0b00000101, 0b00010000, 0b00000011, 0b00100000] = [.run 5 0x10, .run 3 0x20] ∧
    decodeStream [0b00000000, 0b01111111, 0b00000111] = [.run0 0x7F, .tail] := by decide

/-- The opcode table's numbers: P is {count, value}, count in bits 15:8 (R105). -/
theorem test_decode_table_words :
    decodeTableWord 32 0 = some .nop ∧ decodeTableWord 32 1 = some .rleDecode ∧
    decodeTableWord 32 2 = some .palConvert ∧ decodeTableWord 32 3 = some .bmpEmit ∧
    decodeTableWord 32 0x11 = some (.reservedCmd 0x11) ∧ decodeTableWord 16 0x007F = some (.run0 0x7F) ∧
    decodeTableWord 16 0x0510 = some (.run 5 0x10) ∧ decodeTableWord 8 0 = some .tail := by decide

/-! ### One step each -/

/-- CV3: a NOP ends with `STATUS` = 0x02. -/
theorem test_nop_ends : (after (step (running .nop))).status = 0x02 := by decide

/-- CV4: with `OVR` set while it ran, the end shows 0x0A. -/
theorem test_nop_keeps_ovr : (after (step { running .nop with status := 0x09 })).status = 0x0A := by decide

/-- CV2: 0x11 is reserved and ends with 0x76. -/
theorem test_reserved_ends : (after (step (running (.reserved 0x11)))).status = 0x76 := by decide

/-- V3: the start step clears exactly the bytes below the limit; the sentinel at 8 stays. -/
theorem test_rle_start_clears :
    (after (step (decodeStart [] 8))).raster.read 7 = some 0x00 ∧
    (after (step (decodeStart [] 8))).raster.read 8 = some 0xCC := by decide

/-- V13: a limit of 64001 is refused before any write. -/
theorem test_rle_start_refuses :
    (after (step (decodeStart [0x01, 0x01] 64001))).status = 0x76 ∧
    (after (step (decodeStart [0x01, 0x01] 64001))).raster.read 0 = some 0xCC := by decide

/-- V1: the second pair [03 20] fills the destination exactly. -/
theorem test_run_fits :
    (after (step (decoding [0x05, 0x10, 0x03, 0x20] 8 2 5))).cursor = 8 ∧
    (after (step (decoding [0x05, 0x10, 0x03, 0x20] 8 2 5))).inPos = 4 ∧
    (after (step (decoding [0x05, 0x10, 0x03, 0x20] 8 2 5))).raster.read 7 = some 0x20 := by decide

/-- V2: the second pair [04 20] overflows: `CURSOR` 8, `IN_POS` 2, `STATUS` 0x46, byte 8 untouched. -/
theorem test_run_overflows :
    (after (step (decoding [0x05, 0x10, 0x04, 0x20] 8 2 5))).status = 0x46 ∧
    (after (step (decoding [0x05, 0x10, 0x04, 0x20] 8 2 5))).inPos = 2 ∧
    (after (step (decoding [0x05, 0x10, 0x04, 0x20] 8 2 5))).raster.read 8 = some 0xCC := by decide

/-- V5: a RUN0 at a full destination does not overflow. -/
theorem test_run0_at_full_destination :
    (after (step (decoding [0x08, 0xAA, 0x00, 0x55] 8 2 8))).inPos = 4 ∧
    (after (step (decoding [0x08, 0xAA, 0x00, 0x55] 8 2 8))).status = 0x01 := by decide

/-- V8: the tail at offset 2 ends with 0x36, `IN_POS` and `CURSOR` as the pairs left them. -/
theorem test_tail_is_truncated :
    (after (step (decoding [0x02, 0x11, 0x05] 8 2 2))).status = 0x36 ∧
    (after (step (decoding [0x02, 0x11, 0x05] 8 2 2))).inPos = 2 ∧
    (after (step (decoding [0x02, 0x11, 0x05] 8 2 2))).cursor = 2 := by decide

/-- S4: 63 becomes 255 and 32 becomes 129; PV1: 255 above the maximum becomes 8. -/
theorem test_pal_values :
    convertComponent 6 8 63 = 255 ∧ convertComponent 6 8 32 = 129 ∧ convertComponent 6 8 255 = 8 := by decide

/-- PV6: byte 1 of entry 5 (component 16) goes from bank 0 to bank 1, 32 becoming 129. -/
theorem test_pal_component :
    (after (step (convertingAt 0x286 16 32 (.palComponent 16)))).pal.read 784 = some 129 ∧
    (after (step (convertingAt 0x286 16 32 (.palComponent 16)))).pal.read 16 = some 32 := by decide

/-- BV1: the first byte offered is 0x42. -/
theorem test_bmp_first_byte :
    (after (step (emitting 4 2 2000 (.bmpByte 0)))).out.read 0 = some 0x42 ∧
    (after (step (emitting 4 2 2000 (.bmpByte 0)))).outCount = 1 := by decide

/-- S5: the first pixel row written is the bottom one: byte 1078 is raster byte 4. -/
theorem test_bmp_bottom_row_first :
    (after (step (emitting 4 2 2000 (.bmpByte 1078)))).out.read 1078 = some 0x04 := by decide

/-- BV1: the 54 header bytes of the 4 by 2 image. -/
theorem test_bmp_headers :
    bmpFileHeader 4 2 ++ bmpInfoHeader Config.resPpm 4 2 =
      [0x42, 0x4D, 0x3E, 0x04, 0x00, 0x00, 0x00, 0x00, 0x00, 0x00, 0x36, 0x04, 0x00, 0x00,
       0x28, 0x00, 0x00, 0x00, 0x04, 0x00, 0x00, 0x00, 0x02, 0x00, 0x00, 0x00, 0x01, 0x00, 0x08, 0x00,
       0x00, 0x00, 0x00, 0x00, 0x08, 0x00, 0x00, 0x00, 0xC4, 0x0E, 0x00, 0x00, 0xC4, 0x0E, 0x00, 0x00,
       0x00, 0x01, 0x00, 0x00, 0x00, 0x00, 0x00, 0x00] := by decide

/-- BV2: the stride of width 5 is 8, and byte 1083 pads the first row. -/
theorem test_bmp_padding :
    bmpStride 5 = 8 ∧ bmpFileSize 5 2 = 1094 ∧ bmpSource Config.resPpm 5 2 0 1082 = .fromRaster 9 ∧
    bmpSource Config.resPpm 5 2 0 1083 = .fixed 0x00 := by decide

/-- CV5: `PAL_CFG` keeps ten bits of a write. -/
theorem test_register_write_masks :
    (after (busAccess (ldAccess .palCfg) (after (busAccess (stAccess .palCfg 0xFFFFFFFF) idle)))).readData =
      0x000003FF := by decide

/-- CV6: `CMD` reads 0, `RASTER_CAP` 0xFA00, offset 0x80 reads 0. -/
theorem test_register_reads :
    (after (busAccess (ldAccess .cmd) idle)).readData = 0 ∧
    (after (busAccess (ldAccess .rasterCap) idle)).readData = 0x0000FA00 ∧
    (after (busAccess { target := .window, addr := 0x80, width := 32, kind := .read } idle)).readData = 0 := by
  decide

/-- CV8 and CV9: a read of an unwritten raster byte, and a read past the raster. -/
theorem test_buffer_faults :
    stopsWith (busAccess (lbAccess .raster 0) State.reset) = some (.unwrittenRead .raster 0) ∧
    stopsWith (busAccess (lbAccess .raster 64000) State.reset) = some .hostStuck := by decide

/-- P4, the first steps: the host's two `go` lines before any engine step drop the NOP, and `STATUS` shows `OVR`. -/
theorem test_dropped_command :
    (after (busAccess (stAccess .cmd 0) (after (busAccess (stAccess .cmd 1) idle)))).status = 0x09 := by decide

/-- The slide program reads the fields of a record at R130's offsets: here the compressed length 0x0201. -/
theorem test_record_length :
    (parseDirRecord (List.replicate 42 0x00 ++ [0x01, 0x02] ++ List.replicate 791 0x00)).map
      (fun r => r.compressedLength) = some 0x0201 := by decide +kernel

/-! ### An instruction placed after reset is the next one run -/

/-- Every 32-bit row: the command has been accepted and its step is taken. -/
theorem test_fetch_commands :
    (after (step (State.reset.withFetchWord 32 0))).status = 0x02 ∧
    (after (step (State.reset.withFetchWord 32 1))).phase = .rlePairs ∧
    (after (step (State.reset.withFetchWord 32 2))).phase = .palComponent 0 ∧
    (after (step (State.reset.withFetchWord 32 3))).phase = .bmpByte 0 ∧
    (after (step (State.reset.withFetchWord 32 4))).status = 0x76 := by
  refine ⟨?_, ?_, ?_, ?_, ?_⟩ <;> rfl

/-- Every row of the stream: a RUN0, a RUN and the tail. -/
theorem test_fetch_stream :
    (after (step (State.reset.withFetchWord 16 0x007F))).cursor = 0 ∧
    (after (step (State.reset.withFetchWord 16 0x007F))).inPos = 2 ∧
    (after (step (State.reset.withFetchWord 16 0xFF10))).cursor = 255 ∧
    (after (step (State.reset.withFetchWord 8 0))).status = 0x36 := by decide +kernel

/-! ### Witnesses: for every obligation with hypotheses, states and operands that meet them -/

/-- EncodedInstrDecodesBack: the least reserved word above the commands, the largest, and both ends of a RUN's count. -/
theorem test_witness_wellFormed :
    (Instr.reservedCmd 4).wellFormed = true ∧ (Instr.reservedCmd 0xFFFFFFFF).wellFormed = true ∧
    (Instr.run 1 0).wellFormed = true ∧ (Instr.run 255 255).wellFormed = true ∧ Instr.tail.wellFormed = true := by
  decide

/-- StreamOfPairsDecodesBack. -/
theorem test_witness_stream :
    ∀ i ∈ [Instr.run0 0x7F, Instr.run 255 0x10], i.wellFormed = true ∧ i.format = .stream ∧ i ≠ .tail := by decide

/-- EveryCommandWordHasOneMeaning, its inner hypotheses. -/
theorem test_witness_command_word : Instr.nop.wellFormed = true ∧ encode .nop = bytesOfWord 0 := by decide

/-- CommandWriteAcceptedWhenIdle, RegisterReadsAreExactWhenIdle. -/
theorem test_witness_idle : statusBusy idle.status = false := by decide

/-- CommandWriteDroppedWhenBusy, ProgressReadWhileBusyStaysInRange, RegisterWriteWhileBusySparesTheCommand. -/
theorem test_witness_busy : statusBusy (running .nop).status = true := by decide

/-- AcceptanceNotesTheProgressRegisters: an idle block, and a busy one whose step is the host's and one whose step is the
engine's. -/
theorem test_witness_accepted_note :
    statusBusy idle.status = false ∧
    (statusBusy (running .nop).status = true ∧ goesOn (step (running .nop)) = true ∧ (running .nop).turns = []) ∧
    (statusBusy (running .nop).status = true ∧
      goesOn (step { running .nop with turns := [.host], inbox := [.wait] }) = true) := by decide

/-- The note is taken from the registers: an acceptance at `CURSOR` 5 notes 5. -/
theorem test_accepted_note :
    (after (busAccess (stAccess .cmd 1) { idle with cursor := 5 })).accepted.cursor = 5 := by decide

/-- ConfigRegisterReadsBackMasked: every configuration register has a mask, no other register has. -/
theorem test_witness_config_mask :
    configMask .inLen = some 0xFFFF ∧ configMask .palCfg = some 0x3FF ∧ configMask .bmpCfg = some 1 ∧
    configMask .status = none := by decide

/-- ReadOnlyAndUnmappedOffsetsIgnoreWrites: the first and the last unmapped offset. -/
theorem test_witness_unmapped :
    Reg.rasterCap ∈ [Reg.status, .inPos, .cursor, .outCount, .rasterCap] ∧
    (0x30 ≤ 0x30 ∧ 0x30 < 256 ∧ 0x30 % 4 = 0) ∧ (0x30 ≤ 252 ∧ 252 < 256 ∧ 252 % 4 = 0) := by decide

/-- AccessFormsOutsideTheRuleAreRefused: a narrow access, an unaligned one, a wide buffer access, and the last legal one. -/
theorem test_witness_access_forms :
    stopsWith (busAccess { target := .window, addr := 0, width := 16, kind := .read } idle) = some .refusedAccess ∧
    stopsWith (busAccess { target := .window, addr := 2, width := 32, kind := .read } idle) = some .refusedAccess ∧
    stopsWith (busAccess { target := .buffer .raster, addr := 0, width := 32, kind := .read } idle) =
      some .refusedAccess ∧
    goesOn (busAccess { target := .window, addr := 252, width := 32, kind := .read } idle) = true := by decide

/-- HostReadsHaveNoSideEffect. -/
theorem test_witness_host_read : (lbAccess .raster 15).kind = .read ∧ goesOn (busAccess (lbAccess .raster 15) idle) = true := by
  decide

/-- HostByteWriteIsReadBack: the last byte of each space. -/
theorem test_witness_last_bytes :
    statusBusy idle.status = false ∧ 65534 < spaceSize .input ∧ 63999 < spaceSize .raster ∧ 1535 < spaceSize .pal := by
  decide

/-- AccessBeyondTheSpaceIsStuck: the first byte past each space. -/
theorem test_witness_past_the_end :
    spaceSize .input ≤ 65535 ∧ spaceSize .raster ≤ 64000 ∧ spaceSize .pal ≤ 1536 := by decide

/-- BufferAccessWhileBusyIsRefused. -/
theorem test_witness_buffer_while_busy : statusBusy (running .nop).status = true ∧ 0 < spaceSize .pal := by decide

/-- UnwrittenByteReadFaults, its clauses: the host, the count byte, the value byte, a component, a pixel and a palette byte. -/
theorem test_witness_unwritten :
    (spaceMem .raster idle).read 16 = none ∧
    (2 ≤ streamLeft { decoding [0x05, 0x10] 8 0 0 with inBuf := [] } ∧
      ({ decoding [0x05, 0x10] 8 0 0 with inBuf := [] } : State).inBuf.read 0 = none) ∧
    (2 ≤ streamLeft { decoding [0x05, 0x10] 8 0 0 with inBuf := [(0, 0x05)] } ∧
      ({ decoding [0x05, 0x10] 8 0 0 with inBuf := [(0, 0x05)] } : State).inBuf.read 0 ≠ none ∧
      ({ decoding [0x05, 0x10] 8 0 0 with inBuf := [(0, 0x05)] } : State).inBuf.read 1 = none) ∧
    (convertingAt 0x86 3 0 (.palComponent 767)).pal.read (bankAddr (srcBank 0x86) 767) = none ∧
    (bmpSource Config.resPpm 4 3 0 1078 = .fromRaster 8 ∧ (emitting 4 3 2000 (.bmpByte 1078)).raster.read 8 = none) ∧
    (bmpSource Config.resPpm 4 2 0 54 = .fromPal 2 ∧ ({ emitting 4 2 2000 (.bmpByte 54) with pal := [] } : State).pal.read 2 = none) := by
  decide

/-- RleStartChecksItsLimitAndClears: the limits on either side. -/
theorem test_witness_rle_start :
    ((decodeStart [] 64000).phase = .rleStart ∧ (decodeStart [] 64000).cfg.decLimit.toNat ≤ 64000) ∧
    ((decodeStart [] 64001).phase = .rleStart ∧ 64000 < (decodeStart [] 64001).cfg.decLimit.toNat) := by decide

/-- RunThatFitsWritesItsCopies at an exact fill, RunThatOverflowsFillsToTheLimit one byte beyond it, RunOfCountZeroWritesNothing
at a full destination. -/
theorem test_witness_run :
    (2 ≤ streamLeft (decoding [0x05, 0x10, 0x03, 0x20] 8 2 5) ∧ 5 + (0x03 : Byte).toNat ≤ 8) ∧
    ((decoding [0x05, 0x10, 0x04, 0x20] 8 2 5).cursor.toNat ≤ 8 ∧ 8 < 5 + (0x04 : Byte).toNat) ∧
    2 ≤ streamLeft (decoding [0x08, 0xAA, 0x00, 0x55] 8 2 8) := by decide

/-- RleDecodeEndsAtTheEndOfItsStream. -/
theorem test_witness_end_of_stream :
    (decoding [0x03, 0x09] 8 2 3).phase = .rlePairs ∧
    (decoding [0x03, 0x09] 8 2 3).inPos = (decoding [0x03, 0x09] 8 2 3).cfg.inLen := by decide

/-- DecoderIgnoresInputBeyondItsLength: two buffers that differ just past a declared length of 2. -/
theorem test_witness_input_beyond :
    ∀ a, a < (decoding [0x03, 0x09] 8 0 0).cfg.inLen.toNat →
      Memory.read [(0, 0x03), (1, 0x09), (2, 0x77)] a = (decoding [0x03, 0x09] 8 0 0).inBuf.read a := by decide

/-- DecoderWritesOnlyBelowItsLimit: an overflowing pair, and a start step whose old `CURSOR` lies above the new limit. -/
theorem test_witness_below_limit :
    (∃ t, exec (.run 0x04 0x20) (decoding [0x05, 0x10, 0x04, 0x20] 8 2 5) = .next t) ∧
    ∃ t, exec .rleDecode { decodeStart [] 8 with cursor := 9 } = .next t := ⟨⟨_, rfl⟩, _, rfl⟩

/-- RleDecodeSpellsItsRuns: V1, and V8 with its byte left over. -/
theorem test_witness_spells :
    ((decodeStart [0x05, 0x10, 0x03, 0x20] 8).phase = .rleStart ∧
      (decodeStart [0x05, 0x10, 0x03, 0x20] 8).cfg.inLen.toNat = 2 * 2 + 0 ∧
      HoldsAt (decodeStart [0x05, 0x10, 0x03, 0x20] 8).inBuf 0 (pairBytes [(0x05, 0x10), (0x03, 0x20)]) ∧
      (spelled [(0x05, 0x10), (0x03, 0x20)]).length ≤ 8) ∧
    ((decodeStart [0x02, 0x11, 0x05] 8).cfg.inLen.toNat = 2 * 1 + 1 ∧
      HoldsAt (decodeStart [0x02, 0x11, 0x05] 8).inBuf 0 (pairBytes [(0x02, 0x11)]) ∧
      (spelled [(0x02, 0x11)]).length ≤ 8) := by unfold HoldsAt; decide

/-- RleDecodeStopsAtTheOverflowingPair: V2. -/
theorem test_witness_overflow :
    (decodeStart [0x05, 0x10, 0x04, 0x20] 8).phase = .rleStart ∧
    2 * 1 + 2 ≤ (decodeStart [0x05, 0x10, 0x04, 0x20] 8).cfg.inLen.toNat ∧
    HoldsAt (decodeStart [0x05, 0x10, 0x04, 0x20] 8).inBuf 0 (pairBytes ([(0x05, 0x10)] ++ [(0x04, 0x20)])) ∧
    (spelled [(0x05, 0x10)]).length ≤ 8 ∧ 8 < (spelled [(0x05, 0x10)]).length + (0x04 : Byte).toNat := by
  unfold HoldsAt; decide

/-- RleDecodeDependsOnItsInputAlone: two states that differ in the palette and the raster. -/
theorem test_witness_input_alone :
    ∀ a, a < (decodeStart [0x03, 0x09] 8).cfg.inLen.toNat →
      (decodeStart [0x03, 0x09] 8).inBuf.read a =
        ({ decodeStart [0x03, 0x09] 8 with pal := [(0, 1)], raster := [] } : State).inBuf.read a := by decide

/-- PalStartChecksBothDepths: legal depths, PV4 (SRC_DEPTH 5) and PV5 (DST_DEPTH 0). -/
theorem test_witness_depths :
    (converting 0x86 0 .palStart).phase = .palStart ∧
    (srcDepth 0x86 ∈ [4, 6, 8] ∧ dstDepth 0x86 ∈ [4, 6, 8]) ∧ ¬ srcDepth 0x85 ∈ [4, 6, 8] ∧
    ¬ dstDepth 0x06 ∈ [4, 6, 8] := by decide

/-- ComponentStepStoresTheRescaledByte: a component before the last, and the last. -/
theorem test_witness_component :
    ((convertingAt 0x86 766 32 (.palComponent 766)).pal.read (768 * (srcBank 0x86).toNat + 766) = some 32 ∧
      (766 : Nat) + 1 < 768) ∧
    (convertingAt 0x86 767 32 (.palComponent 767)).pal.read (768 * (srcBank 0x86).toNat + 767) = some 32 := by decide

/-- Every byte of a filled memory has been written. -/
theorem read_fill_ne_none (size a : Nat) (v : Byte) (h : a < size) : (Memory.fill [] 0 size v).read a ≠ none := by
  rw [Memory.read_fill]; simp [h]

/-- PalConvertRescalesTheWholeBank. -/
theorem test_witness_pal_convert :
    (converting 0x86 63 .palStart).phase = .palStart ∧ legalDepth (srcDepth 0x86) = true ∧
    legalDepth (dstDepth 0x86) = true ∧
    ∀ n, n < 768 → (converting 0x86 63 .palStart).pal.read (bankAddr (srcBank 0x86) n) ≠ none :=
  ⟨rfl, rfl, rfl, fun n hn => read_fill_ne_none 1536 _ _ (by
    have h := (srcBank 0x86).isLt
    simp only [bankAddr, Config.bankBytes]
    omega)⟩

/-- ConversionsHaveTheirClosedForms and RescalingIsMonotoneBetweenTheMaxima: the largest legal components, the legal depths. -/
theorem test_witness_components :
    (15 : Byte).toNat ≤ 15 ∧ (63 : Byte).toNat ≤ 63 ∧ legalDepth 4 = true ∧ legalDepth 6 = true ∧ legalDepth 8 = true ∧
    (62 : Byte).toNat ≤ (63 : Byte).toNat ∧ (63 : Byte).toNat ≤ depthMax 6 := by decide

/-- BmpStartChecksAndOpensTheSink: BE1, a height of 0, BE2, and BE3, the largest legal raster. -/
theorem test_witness_dimensions :
    (emitting 0 2 2000 .bmpStart).phase = .bmpStart ∧ (emitting 0 2 2000 .bmpStart).cfg.bmpW.toNat = 0 ∧
    (emitting 4 0 2000 .bmpStart).cfg.bmpH.toNat = 0 ∧ 64000 < (321 : BitVec 16).toNat * (200 : BitVec 16).toNat ∧
    ((emitting 64000 1 2000 .bmpStart).phase = .bmpStart ∧ 0 < (64000 : BitVec 16).toNat ∧ 0 < (1 : BitVec 16).toNat ∧
      (64000 : BitVec 16).toNat * (1 : BitVec 16).toNat ≤ 64000) := by decide

/-- BmpStartChecksAndOpensTheSink, its inner clauses: a sink that answers `ok`, and BE4's, which answers `fail`. -/
theorem test_witness_sink_answers :
    (sinkOpenCall (emitting 4 2 2000 .bmpStart)).1 = true ∧
    (sinkOpenCall { emitting 4 2 2000 .bmpStart with sink := .drawn [false] }).1 = false := by decide

/-- SinkAnswersAreGivenOnceEach: a standard sink, a list with an answer left, and an empty list. -/
theorem test_witness_sinks :
    (emitting 4 2 2000 .bmpStart).sink = .standard 2000 ∧
    ({ idle with sink := .drawn [false, true] } : State).sink = .drawn (false :: [true]) ∧
    ({ idle with sink := .drawn [] } : State).sink = .drawn [] := by decide

/-- A listed answer is used up by one call: BE4's failing open leaves the answers after it. -/
theorem test_listed_answer_is_used_up :
    (after (step { emitting 4 2 2000 .bmpStart with sink := .drawn [false, true] })).status = 0x56 ∧
    (after (step { emitting 4 2 2000 .bmpStart with sink := .drawn [false, true] })).sink = .drawn [true] := by decide

/-- AcceptedByteIsCounted: the first byte, and the last byte of BE6. -/
theorem test_witness_accepted :
    ((fileByte 0 (emitting 4 2 1086 (.bmpByte 0))).toOption = some 0x42 ∧
      (sinkWriteCall 0 0x42 (emitting 4 2 1086 (.bmpByte 0))).1 = true ∧
      0 + 1 < cfgFileSize (emitting 4 2 1086 (.bmpByte 0))) ∧
    ((fileByte 1085 (emitting 4 2 1086 (.bmpByte 1085))).toOption = some 0x03 ∧
      (sinkWriteCall 1085 0x03 (emitting 4 2 1086 (.bmpByte 1085))).1 = true ∧
      1085 + 1 = cfgFileSize (emitting 4 2 1086 (.bmpByte 1085))) := by decide

/-- RefusedByteEndsTheCommand: the last byte of BE7. -/
theorem test_witness_refused_byte :
    (fileByte 1085 (emitting 4 2 1085 (.bmpByte 1085))).toOption = some 0x03 ∧
    (sinkWriteCall 1085 0x03 (emitting 4 2 1085 (.bmpByte 1085))).1 = false := by decide

/-- HeaderFieldsReadBack and PaletteAndPixelBytesAreInPlace: the smallest and the largest rasters, a pixel and a pad byte. -/
theorem test_witness_headers :
    bmpRefused 1 1 = false ∧ bmpRefused 64000 1 = false ∧ bmpRefused 1 64000 = false ∧
    ((1 : Nat) < 2 ∧ 4 < (5 + 3) / 4 * 4 ∧ 4 < 5) ∧ (7 < (5 + 3) / 4 * 4 ∧ 5 ≤ 7) := by decide

/-- The inputs of an emission of 4 by 2 pixels are written. -/
theorem inputs_emitting (capacity : Nat) : InputsWritten (emitting 4 2 capacity .bmpStart) := by
  refine ⟨fun a ha => ?_, fun n hn => read_fill_ne_none 1536 _ _ ?_⟩
  · have h : ∀ a, a < 8 → Memory.read (cells 0 [0x00, 0x01, 0x02, 0x03, 0x04, 0x05, 0x06, 0x07]) a ≠ none := by decide
    exact h a ha
  have h := (idle.cfg.bmpCfg).isLt
  show Config.bankBytes * idle.cfg.bmpCfg.toNat + n < 1536
  simp only [Config.bankBytes]
  omega

/-- BmpFileReachesTheSink: BE6, whose file fits exactly, and BE7, whose last byte does not. -/
theorem test_witness_bmp_file :
    (InputsWritten (emitting 4 2 1086 .bmpStart) ∧ bmpRefused 4 2 = false ∧
      cfgFileSize (emitting 4 2 1086 .bmpStart) ≤ 1086 ∧ (emitting 4 2 1086 .bmpStart).sink = .standard 1086) ∧
    (InputsWritten (emitting 4 2 1085 .bmpStart) ∧ ¬ cfgFileSize (emitting 4 2 1085 .bmpStart) ≤ 1085) :=
  ⟨⟨inputs_emitting _, by decide, by decide, rfl⟩, inputs_emitting _, by decide⟩

/-- PlatformResetForgetsTheBuffers: a reset while a command runs. -/
theorem test_witness_reset :
    ({ decoding [0x05, 0x10] 8 0 0 with turns := [.reset] } : State).turns = .reset :: [] := rfl

/-- EveryStepKeepsTheInvariant: a state in the middle of a decode meets the invariant, and its step goes on. -/
theorem test_witness_invariant :
    MachineInv (decoding [0x05, 0x10, 0x03, 0x20] 8 2 5) ∧
    ∃ t, step (decoding [0x05, 0x10, 0x03, 0x20] 8 2 5) = .next t :=
  ⟨⟨by decide, by decide, ⟨by decide, by decide, by decide, by decide, by decide, by decide, by decide⟩, by decide,
    by decide, ⟨by decide, by decide, by decide⟩⟩, _, rfl⟩

/-- EveryCommandEndsWithinItsBound: that state's stream is written too. -/
theorem test_witness_bound : InputsWritten (decoding [0x05, 0x10, 0x03, 0x20] 8 2 5) := by
  show ∀ a, 2 ≤ a → a < 4 → _
  intro a h1 h2
  interval_cases a <;> decide

/-- StepRunsTheDecodedPair: a pair, with and without an order of moves, and the tail. -/
theorem test_witness_step_pair :
    ((decoding [0x05, 0x10] 8 0 0).phase = .rlePairs ∧ 2 ≤ streamLeft (decoding [0x05, 0x10] 8 0 0) ∧
      (decoding [0x05, 0x10] 8 0 0).inBuf.read 0 = some 0x05 ∧ (decoding [0x05, 0x10] 8 0 0).inBuf.read 1 = some 0x10 ∧
      (decode .stream [0x05, 0x10]).toOption = some (.run 0x05 0x10, [])) ∧
    (streamLeft (decoding [0x02, 0x11, 0x05] 8 2 2) = 1 ∧ (decode .stream [0x05]).toOption = some (.tail, [])) ∧
    (decoding [0x05, 0x10] 8 0 0).turns = [] ∧
    ({ decoding [0x05, 0x10] 8 0 0 with turns := [.engine] } : State).turns = .engine :: [] := by decide

/-- StepRunsTheAcceptedCommand. -/
theorem test_witness_step_command :
    idle.phase = .idle ∧ statusBusy idle.status = false ∧ idle.turns = [] ∧
    ({ idle with inbox := asmGo .rleDecode } : State).inbox = [.access (stAccess .cmd 1)] ∧
    (decode .cmd32 (bytesOfWord 1)).toOption = some (.rleDecode, []) := by decide

/-- StepRunsTheRunningCommand: the last phases of the two long commands, the end of a stream, and both orders of moves. -/
theorem test_witness_step_running :
    (converting 0x86 0 (.palComponent 767)).phase = .palComponent 767 ∧
    (emitting 4 2 2000 (.bmpByte 1085)).phase = .bmpByte 1085 ∧
    ((decoding [0x03, 0x09] 8 2 3).phase = .rlePairs ∧ streamLeft (decoding [0x03, 0x09] 8 2 3) = 0) ∧
    (running (.reserved 4)).turns = [] ∧
    ({ running .nop with turns := [.engine] } : State).turns = .engine :: [] := by decide

/-- TheAgentWhoseTurnItIsMoves: `wait` waits while busy and is done once it is not. -/
theorem test_witness_turns :
    (after (step { running .nop with turns := [.host], inbox := [.wait] })).inbox = [.wait] ∧
    (after (step { idle with turns := [.host], inbox := [.wait] })).inbox = [] ∧
    (after (step { idle with turns := [.host], inbox := [] })).turns = [] ∧
    (after (step { idle with turns := [.engine] })).turns = [] := by decide

/-- EachInstructionKeepsToItsOwnState. -/
theorem test_witness_own_state : ∃ t, exec .palConvert (convertingAt 0x86 0 63 (.palComponent 0)) = .next t :=
  ⟨after (exec .palConvert (convertingAt 0x86 0 63 (.palComponent 0))), rfl⟩

/-- IdleBlockWaitsForACommand: an idle step, an accepted command and a reset. -/
theorem test_witness_idle_steps :
    idle.phase = .idle ∧ goesOn (step idle) = true ∧
    (after (step { idle with inbox := asmGo .nop })).status = 0x01 ∧
    (after (step { idle with turns := [.reset] })).status = 0x00 := by decide

end Sys2Proof.Tests
end

section
/-! PROOFS. The statements about the state and the register window (10_state.md): first what each agent's move can do, once each,
then the invariant of O47, then the obligations. -/

namespace Sys2Proof.Machine

/-! ### Register accesses -/

/-- Every register lies below the unmapped part of the window (R21). -/
theorem regOffset_lt (r : Reg) : regOffset r < 0x30 := by cases r <;> decide

/-- No register stands at 0x30 or beyond (R21). -/
theorem regAt_unmapped {a : Nat} (h : 0x30 ≤ a) : regAt a = none := by
  cases hr : regAt a with
  | none => rfl
  | some r =>
    have ha := eq_regOffset_of_regAt hr
    have hlt := regOffset_lt r
    omega

/-- An access of R77's form at any offset of the window reads or writes what stands there (R145, R146). -/
theorem busAccess_window {a : Nat} (k : BusKind) (s : State) (hlt : a < 256) (hal : a % 4 = 0) :
    busAccess { target := .window, addr := a, width := 32, kind := k } s =
      match k with
      | .read => .next (readRegister (regAt a) s)
      | .write w => .next (writeRegister (regAt a) w s) := by
  have hform : windowForm { target := .window, addr := a, width := 32, kind := k } = true := by
    simp [windowForm, Config.regWidth, Config.windowBytes, hlt, hal]
  cases k <;> simp only [busAccess, windowAccess, hform, if_true]

/-- The word a register shows while no draw is involved (R21, R36, R146). -/
def regValue : Reg → State → Word
  | .cmd, _ => 0
  | .status, s => s.status.setWidth 32
  | .inLen, s => s.inLen.setWidth 32
  | .decLimit, s => s.decLimit.setWidth 32
  | .inPos, s => s.inPos.setWidth 32
  | .cursor, s => s.cursor.setWidth 32
  | .palCfg, s => s.palCfg.setWidth 32
  | .bmpW, s => s.bmpW.setWidth 32
  | .bmpH, s => s.bmpH.setWidth 32
  | .bmpCfg, s => s.bmpCfg.setWidth 32
  | .outCount, s => s.outCount
  | .rasterCap, _ => 64000

/-- A progress read is exact while the block is idle (R146). -/
theorem readProgress_idle {s : State} (hi : statusBusy s.status = false) (field : Progress → Nat) :
    readProgress field s = { s with readData := BitVec.ofNat 32 (field (progress s)) } := by
  simp only [readProgress, hi]; rfl

/-- While the block is idle `ld` shows the register's value and changes nothing else (R146). -/
theorem busAccess_ld_idle {s : State} (hi : statusBusy s.status = false) (r : Reg) :
    busAccess (ldAccess r) s = .next { s with readData := regValue r s } := by
  rw [busAccess_ld]
  cases r
  case inPos | cursor | outCount =>
    simp only [readRegister, readProgress_idle hi, progress, regValue, BitVec.ofNat_toNat, BitVec.setWidth_eq]
  all_goals rfl

/-- A progress read while the block is busy lies between the value at acceptance and the final value, whatever the draw
(R37). -/
theorem readProgress_busy_mem {s : State} (hb : statusBusy s.status = true) {field : Progress → Nat}
    (hfit : ∀ p, field p < 2 ^ 32) :
    min (field s.accepted) (field (finalProgress s)) ≤ (readProgress field s).readData.toNat ∧
    (readProgress field s).readData.toNat ≤ max (field s.accepted) (field (finalProgress s)) := by
  have hdraw := drawBetween_mem (field s.accepted) (field (finalProgress s)) (Config.progressDraw s.readDraws)
  have hmax := Nat.max_lt.mpr ⟨hfit s.accepted, hfit (finalProgress s)⟩
  rw [readProgress, if_pos hb]
  simp only [BitVec.toNat_ofNat]
  rw [Nat.mod_eq_of_lt (Nat.lt_of_le_of_lt hdraw.2 hmax)]
  exact hdraw

/-- A `CMD` write to an idle block is accepted (R140). -/
theorem busAccess_st_cmd_idle {s : State} (hi : statusBusy s.status = false) (w : Word) :
    busAccess (stAccess .cmd w) s = .next (acceptCommand w s) := by
  simp only [busAccess_st, writeRegister, hi]; rfl

/-- Everything a register write can do: it accepts a command where none runs, or it touches the configuration registers
and `OVR` alone (R142, R145). -/
theorem writeRegister_cases (r : Option Reg) (w : Word) (s : State) :
    (statusBusy s.status = false ∧ writeRegister r w s = acceptCommand w s) ∨
    (statusBusy s.status = true ∧ writeRegister r w s = dropCommand s) ∨
    (∃ inLen decLimit palCfg bmpW bmpH bmpCfg, writeRegister r w s =
      { s with inLen := inLen, decLimit := decLimit, palCfg := palCfg, bmpW := bmpW, bmpH := bmpH, bmpCfg := bmpCfg }) := by
  rcases r with _ | r
  · exact .inr (.inr ⟨_, _, _, _, _, _, rfl⟩)
  cases r
  case cmd =>
    cases hb : statusBusy s.status with
    | false => exact .inl ⟨rfl, by simp only [writeRegister, hb]; rfl⟩
    | true => exact .inr (.inl ⟨rfl, by simp only [writeRegister, hb, if_true]⟩)
  all_goals exact .inr (.inr ⟨_, _, _, _, _, _, rfl⟩)

/-! ### What each agent's move can do -/

/-- An answered buffer access stays inside an idle block's space, and writes one byte or only returns one (R77, R78, R147,
R286). -/
theorem bufferAccess_cases {sp : Space} {a : BusAccess} {s t : State} (h : bufferAccess sp a s = .next t) :
    statusBusy s.status = false ∧ a.addr < spaceSize sp ∧
      ((∃ b, t = memWrite sp a.addr b s) ∨ ∃ v, t = { s with readData := v }) := by
  unfold bufferAccess at h
  split_ifs at h with hw hrange hbusy
  refine ⟨Bool.eq_false_iff.mpr hbusy, Nat.not_le.mp hrange, ?_⟩
  cases hk : a.kind with
  | write w =>
    simp only [hk, Host.Outcome.next.injEq] at h
    exact .inl ⟨_, h.symm⟩
  | read =>
    simp only [hk] at h
    cases hr : memRead sp a.addr s with
    | error f => simp [hr] at h
    | ok b =>
      simp only [hr, Host.Outcome.next.injEq] at h
      exact .inr ⟨_, h.symm⟩

/-- Everything an answered host access can do (R145 to R147). -/
theorem busAccess_cases {a : BusAccess} {s t : State} (h : busAccess a s = .next t) :
    (∃ readData readDraws, t = { s with readData := readData, readDraws := readDraws }) ∨
    (∃ r w, t = writeRegister r w s) ∨
    (statusBusy s.status = false ∧ ∃ sp addr b, addr < spaceSize sp ∧ t = memWrite sp addr b s) := by
  unfold busAccess at h
  cases ht : a.target with
  | buffer sp =>
    simp only [ht] at h
    obtain ⟨hi, hlt, ⟨b, rfl⟩ | ⟨v, rfl⟩⟩ := bufferAccess_cases h
    · exact .inr (.inr ⟨hi, sp, a.addr, b, hlt, rfl⟩)
    · exact .inl ⟨v, s.readDraws, rfl⟩
  | window =>
    simp only [ht, windowAccess] at h
    split_ifs at h
    cases hk : a.kind with
    | read =>
      simp only [hk, Host.Outcome.next.injEq] at h
      exact .inl ⟨_, _, h ▸ readRegister_frame _ s⟩
    | write w =>
      simp only [hk, Host.Outcome.next.injEq] at h
      exact .inr (.inl ⟨_, _, h.symm⟩)

/-- Everything the host's move can do: its next access, or only the returned value and its own program move (R110, R255). -/
theorem hostTurn_cases {s t : State} (h : hostTurn s = .next t) :
    (∃ a rest, s.inbox = .access a :: rest ∧ busAccess a { s with inbox := rest } = .next t) ∨
    (∃ readData inbox, t = { s with readData := readData, inbox := inbox }) := by
  unfold hostTurn at h
  split at h
  · exact .inr ⟨s.readData, s.inbox, (Host.Outcome.next.inj h).symm⟩
  · exact .inl ⟨_, _, ‹_›, h⟩
  · simp only [readRegister] at h
    split_ifs at h
    · exact .inr ⟨_, s.inbox, (Host.Outcome.next.inj h).symm⟩
    · exact .inr ⟨_, _, (Host.Outcome.next.inj h).symm⟩

/-- Everything a step can be: the engine's move, the host's, or a platform reset, with the turn taken off (R255, R280). -/
theorem step_cases {s t : State} (h : step s = .next t) : ∃ rest,
    engineStep { s with turns := rest } = .next t ∨ hostTurn { s with turns := rest } = .next t ∨
    (s.turns = .reset :: rest ∧ t = platformReset { s with turns := rest }) := by
  unfold step moveNext at h
  split at h
  · next hturns =>
    refine ⟨[], ?_⟩
    rw [← hturns]
    unfold defaultTurn at h
    split at h
    · exact .inr (.inl h)
    · exact .inl h
  · exact ⟨_, .inr (.inl h)⟩
  · exact ⟨_, .inl h⟩
  · next rest hturns => exact ⟨rest, .inr (.inr ⟨hturns, (Host.Outcome.next.inj h).symm⟩)⟩

/-- The engine's move is an instruction's, or nothing where it is idle (R255, R265). -/
theorem engineStep_cases {s t : State} (h : engineStep s = .next t) : t = s ∨ ∃ i, exec i s = .next t := by
  unfold engineStep at h
  split at h
  · cases h
  · exact .inl (Host.Outcome.next.inj h).symm
  · exact .inr ⟨_, h⟩

/-! ### What each instruction can write -/

/-- The pair step writes the decoder's own state (R162). -/
theorem pairStep_frame (count value : Byte) (s : State) :
    ∃ status inPos cursor raster phase runLeft, pairStep count value s =
      { s with status := status, inPos := inPos, cursor := cursor, raster := raster, phase := phase,
               runLeft := runLeft } := by
  rcases Nat.lt_or_ge (room s) count.toNat with h | h
  · exact ⟨_, _, _, _, _, _, pairStep_overflows h⟩
  · exact ⟨_, _, _, _, _, _, pairStep_fits h⟩

/-- The start step of RLE_DECODE writes the decoder's own state (R161). -/
theorem rleStart_frame (s : State) :
    ∃ status inPos cursor raster phase runLeft, rleStart s =
      { s with status := status, inPos := inPos, cursor := cursor, raster := raster, phase := phase,
               runLeft := runLeft } := by
  rcases Nat.lt_or_ge Config.rasterCap s.cfg.decLimit.toNat with h | h
  · exact ⟨_, _, _, _, _, _, rleStart_refused h⟩
  · exact ⟨_, _, _, _, _, _, rleStart_clears h⟩

/-- Everything an answered step of R162 can do. -/
theorem rleContinue_cases {s t : State} (h : rleContinue s = .next t) :
    t = normalEnd s ∨ t = raiseError .truncatedRead s ∨
    (2 ≤ streamLeft s ∧ ∃ count value, t = pairStep count value s) := by
  unfold rleContinue at h
  rcases streamItem_cases s with ⟨-, hi⟩ | ⟨-, hi⟩ | ⟨hleft, count, value, -, -, hi⟩ | ⟨-, a, hi, -⟩
  all_goals simp only [hi] at h
  · exact .inl (Host.Outcome.next.inj h).symm
  · exact .inr (.inl (Host.Outcome.next.inj h).symm)
  · exact .inr (.inr ⟨hleft, count, value, (Host.Outcome.next.inj h).symm⟩)
  · cases h

/-- RLE_DECODE writes the decoder's own state (R160). -/
theorem execRleDecode_frame {s t : State} (h : execRleDecode s = .next t) :
    ∃ status inPos cursor raster phase runLeft, t =
      { s with status := status, inPos := inPos, cursor := cursor, raster := raster, phase := phase,
               runLeft := runLeft } := by
  unfold execRleDecode at h
  split at h
  · obtain rfl | rfl | ⟨-, count, value, rfl⟩ := rleContinue_cases h
    · exact ⟨_, _, _, _, _, _, rfl⟩
    · exact ⟨_, _, _, _, _, _, rfl⟩
    · exact pairStep_frame count value s
  · cases h
    exact rleStart_frame s

/-- PAL_CONVERT writes the palette and the command's end (R190). -/
theorem execPalConvert_frame {s t : State} (h : execPalConvert s = .next t) :
    ∃ status pal phase, t = { s with status := status, pal := pal, phase := phase } := by
  unfold execPalConvert at h
  split at h
  · next n _ =>
    obtain ⟨v, -, hstep⟩ | hstep := palComponentStep_cases n s
    · cases hstep.symm.trans h
      by_cases hn : n.val + 1 < 768
      · exact ⟨_, _, _, palAdvance_more hn _⟩
      · exact ⟨_, _, _, palAdvance_last hn _⟩
    · cases hstep.symm.trans h
  · cases h
    by_cases hd : legalDepth (srcDepth s.cfg.palCfg) = true ∧ legalDepth (dstDepth s.cfg.palCfg) = true
    · exact ⟨_, _, _, palStart_legal hd.1 hd.2⟩
    · exact ⟨_, _, _, palStart_refused hd⟩

/-- BMP_EMIT writes the sink, `OUT_COUNT` and the command's end (R210). -/
theorem execBmpEmit_frame {s t : State} (h : execBmpEmit s = .next t) :
    ∃ status outCount phase sinkOpen out sink sinkDraws, t =
      { s with status := status, outCount := outCount, phase := phase, sinkOpen := sinkOpen, out := out,
               sink := sink, sinkDraws := sinkDraws } := by
  unfold execBmpEmit at h
  split at h
  · next o _ =>
    obtain ⟨b, sink, draws, -, hstep | hstep⟩ | ⟨f, -, hstep⟩ := bmpByteStep_cases o s
    · cases hstep.symm.trans h
      by_cases ho : o + 1 < cfgFileSize s
      · exact ⟨_, _, _, _, _, _, _, bmpAdvance_more ho⟩
      · exact ⟨_, _, _, _, _, _, _, bmpAdvance_last ho⟩
    · cases hstep.symm.trans h
      exact ⟨_, _, _, _, _, _, _, rfl⟩
    · cases hstep.symm.trans h
  · cases h
    obtain ⟨-, hstart⟩ | ⟨-, sink, draws, hstart | hstart⟩ := bmpStart_cases s
    all_goals exact ⟨_, _, _, _, _, _, _, hstart⟩

/-- Which instruction writes what: the decoder's state, the palette, the sink, or nothing but the command's end. -/
theorem exec_cases {i : Instr} {s t : State} (h : exec i s = .next t) :
    ((i = .rleDecode ∨ i.format = .stream) ∧ ∃ status inPos cursor raster phase runLeft, t =
      { s with status := status, inPos := inPos, cursor := cursor, raster := raster, phase := phase,
               runLeft := runLeft }) ∨
    (i = .palConvert ∧ ∃ status pal phase, t = { s with status := status, pal := pal, phase := phase }) ∨
    (i = .bmpEmit ∧ ∃ status outCount phase sinkOpen out sink sinkDraws, t =
      { s with status := status, outCount := outCount, phase := phase, sinkOpen := sinkOpen, out := out,
               sink := sink, sinkDraws := sinkDraws }) ∨
    (∃ status phase, t = { s with status := status, phase := phase }) := by
  cases i with
  | nop => exact .inr (.inr (.inr ⟨_, _, (Host.Outcome.next.inj h).symm⟩))
  | reservedCmd w => exact .inr (.inr (.inr ⟨_, _, (Host.Outcome.next.inj h).symm⟩))
  | tail => exact .inr (.inr (.inr ⟨_, _, (Host.Outcome.next.inj h).symm⟩))
  | rleDecode => exact .inl ⟨.inl rfl, execRleDecode_frame h⟩
  | run0 value => exact .inl ⟨.inr rfl, Host.Outcome.next.inj h ▸ pairStep_frame 0 value s⟩
  | run count value => exact .inl ⟨.inr rfl, Host.Outcome.next.inj h ▸ pairStep_frame count value s⟩
  | palConvert => exact .inr (.inl ⟨rfl, execPalConvert_frame h⟩)
  | bmpEmit => exact .inr (.inr (.inl ⟨rfl, execBmpEmit_frame h⟩))

/-! ### The note of R37's range -/

/-- The engine leaves the note of acceptance alone. -/
theorem engineStep_accepted {s t : State} (h : engineStep s = .next t) : t.accepted = s.accepted := by
  obtain rfl | ⟨i, hi⟩ := engineStep_cases h
  · rfl
  · obtain ⟨-, _, _, _, _, _, _, rfl⟩ | ⟨-, _, _, _, rfl⟩ | ⟨-, _, _, _, _, _, _, _, rfl⟩ | ⟨_, _, rfl⟩ := exec_cases hi
    all_goals rfl

/-- A host access to a busy block leaves the note of acceptance alone: a `CMD` write is dropped (R142). -/
theorem busAccess_accepted_of_busy {a : BusAccess} {s t : State} (hb : statusBusy s.status = true)
    (h : busAccess a s = .next t) : t.accepted = s.accepted := by
  obtain ⟨_, _, rfl⟩ | ⟨r, w, rfl⟩ | ⟨hi, -⟩ := busAccess_cases h
  · rfl
  · obtain ⟨hi, -⟩ | ⟨-, hw⟩ | ⟨_, _, _, _, _, _, hw⟩ := writeRegister_cases r w s
    · simp [hb] at hi
    · rw [hw]; rfl
    · rw [hw]
  · simp [hb] at hi

theorem hostTurn_accepted_of_busy {s t : State} (hb : statusBusy s.status = true) (h : hostTurn s = .next t) :
    t.accepted = s.accepted := by
  obtain ⟨a, rest, -, ha⟩ | ⟨_, _, rfl⟩ := hostTurn_cases h
  · exact busAccess_accepted_of_busy (s := { s with inbox := rest }) hb ha
  · rfl

/-! ### The invariant: its parts -/

/-- The part of the invariant that speaks of no phase: the buffers, `IN_POS` and `CURSOR` (R33, R34, R72 to R74). -/
structure DataInv (s : State) : Prop where
  buffers : BuffersInv s
  inPosEven : s.inPos.toNat % 2 = 0
  cursor : s.cursor.toNat ≤ Config.rasterCap

theorem MachineInv.data {s : State} (h : MachineInv s) : DataInv s := ⟨h.buffers, h.inPosEven, h.cursor⟩

theorem phaseInv_of_idle {s : State} (h : s.phase = .idle) : PhaseInv s := by
  simp only [PhaseInv, h]

/-- A normal end gives the invariant back, wherever the command stood (R141). -/
theorem DataInv.normalEnd {s : State} (h : DataInv s) : MachineInv (normalEnd s) where
  status := statusInv_normalEnd s.status
  busy := by simp
  buffers := h.buffers
  inPosEven := h.inPosEven
  cursor := h.cursor
  phase := phaseInv_of_idle rfl

/-- So does an error with a code the block raises (R251, R252). -/
theorem DataInv.raiseError {code : ErrorCode} {s : State} (hcode : shownCode (errorNumber code) = true) (h : DataInv s) :
    MachineInv (raiseError code s) where
  status := statusInv_error hcode s.status
  busy := by simp
  buffers := h.buffers
  inPosEven := h.inPosEven
  cursor := h.cursor
  phase := phaseInv_of_idle rfl

/-- A command that goes on to another of its phases keeps `STATUS`. -/
theorem MachineInv.goesOn {s t : State} (h : MachineInv s) (hs : s.phase ≠ .idle) (hstatus : t.status = s.status)
    (ht : t.phase ≠ .idle) (hd : DataInv t) (hp : PhaseInv t) : MachineInv t where
  status := hstatus ▸ h.status
  busy := by rw [hstatus, h.busy]; exact iff_of_true hs ht
  buffers := hd.buffers
  inPosEven := hd.inPosEven
  cursor := hd.cursor
  phase := hp

/-- The invariant does not read the configuration registers, the host's program, the order of moves or what reads return. -/
theorem MachineInv.of_host_fields {s t : State} (h : MachineInv s)
    (ht : t = { s with
      inLen := t.inLen, decLimit := t.decLimit, palCfg := t.palCfg, bmpW := t.bmpW, bmpH := t.bmpH, bmpCfg := t.bmpCfg,
      readDraws := t.readDraws, readData := t.readData, inbox := t.inbox, turns := t.turns }) : MachineInv t := by
  rw [ht]
  exact ⟨h.status, h.busy, h.buffers, h.inPosEven, h.cursor, h.phase⟩

/-- A fill inside a space keeps the buffers well formed. -/
theorem BuffersInv.memFill {s : State} (h : BuffersInv s) {sp : Space} {lo n : Nat} (hlt : lo + n ≤ spaceSize sp) (b : Byte) :
    BuffersInv (memFill sp lo n b s) := by
  obtain ⟨hin, hinB, hras, hrasB, hpal, hpalB, hout⟩ := h
  cases sp with
  | input => exact ⟨Memory.wf_fill hin lo n b, Memory.below_fill hinB hlt b, hras, hrasB, hpal, hpalB, hout⟩
  | raster => exact ⟨hin, hinB, Memory.wf_fill hras lo n b, Memory.below_fill hrasB hlt b, hpal, hpalB, hout⟩
  | pal => exact ⟨hin, hinB, hras, hrasB, Memory.wf_fill hpal lo n b, Memory.below_fill hpalB hlt b, hout⟩

/-- A byte written inside a space keeps the invariant, whoever writes it: no other part of it reads a buffer. -/
theorem memWrite_keeps_inv {s : State} (h : MachineInv s) {sp : Space} {a : Nat} (ha : a < spaceSize sp) (b : Byte) :
    MachineInv (memWrite sp a b s) := by
  have hbuf : BuffersInv (memWrite sp a b s) := h.buffers.memFill ha b
  cases sp
  all_goals exact ⟨h.status, h.busy, hbuf, h.inPosEven, h.cursor, h.phase⟩

/-- A byte stored in the sink, and the answers used up, keep the invariant (R85). -/
theorem outWrite_keeps_inv {s : State} (h : MachineInv s) (o : Nat) (b : Byte) (sink : SinkKind) (draws : Nat) :
    MachineInv { s with sink := sink, sinkDraws := draws, out := s.out.write o b } := by
  obtain ⟨hin, hinB, hras, hrasB, hpal, hpalB, hout⟩ := h.buffers
  exact ⟨h.status, h.busy, ⟨hin, hinB, hras, hrasB, hpal, hpalB, Memory.wf_write hout o b⟩, h.inPosEven, h.cursor,
    h.phase⟩

/-! ### The invariant: the engine's steps -/

/-- The start step of RLE_DECODE keeps the invariant (R161, R168). -/
theorem rleStart_keeps_inv {s : State} (h : MachineInv s) (hp : s.phase = .rleStart) : MachineInv (rleStart s) := by
  rcases Nat.lt_or_ge Config.rasterCap s.cfg.decLimit.toNat with hlim | hlim
  · rw [rleStart_refused hlim]
    exact DataInv.raiseError rfl ⟨h.buffers, rfl, Nat.zero_le _⟩
  · have hbuf := h.buffers.memFill (sp := .raster) (lo := 0) (by simpa [spaceSize] using hlim) 0x00
    rw [rleStart_clears hlim]
    exact h.goesOn (by simp [hp]) rfl Phase.noConfusion ⟨hbuf, rfl, Nat.zero_le _⟩ ⟨hlim, Nat.zero_le _, Nat.zero_le _⟩

/-- The pair step keeps the invariant: neither `IN_POS` nor `CURSOR` passes its end (R33, R162, R168, R171). -/
theorem pairStep_keeps_inv {s : State} (h : MachineInv s) (hp : s.phase = .rlePairs) (hleft : 2 ≤ streamLeft s)
    (count value : Byte) : MachineInv (pairStep count value s) := by
  have hphase := h.phase
  simp only [PhaseInv, hp] at hphase
  obtain ⟨hlim, hcur, hpos⟩ := hphase
  have hbuf : ∀ n, n ≤ room s → BuffersInv (memFill .raster s.cursor.toNat n value s) := fun n hn =>
    h.buffers.memFill (by unfold room at hn; simp only [spaceSize]; omega) value
  rcases Nat.lt_or_ge (room s) count.toNat with hroom | hroom
  · have hcursor := cursor_add_toNat (Nat.le_refl (room s))
    rw [pairStep_overflows hroom]
    refine DataInv.raiseError rfl ⟨hbuf _ (Nat.le_refl _), h.inPosEven, ?_⟩
    simp only [hcursor]
    unfold room; omega
  · have hcursor := cursor_add_toNat hroom
    have hnext := inPos_add_toNat hleft
    have heven := h.inPosEven
    unfold room at hroom
    unfold streamLeft at hleft
    rw [pairStep_fits hroom]
    refine h.goesOn (by simp [hp]) rfl (by simp [hp]) ⟨hbuf _ hroom, ?_, ?_⟩ ?_
    · simp only [hnext]; omega
    · simp only [hcursor]; omega
    · simp only [PhaseInv, hp, hcursor, hnext]
      omega

/-- The step of R162 keeps the invariant. -/
theorem rleContinue_keeps_inv {s t : State} (h : MachineInv s) (hp : s.phase = .rlePairs) (ht : rleContinue s = .next t) :
    MachineInv t := by
  obtain rfl | rfl | ⟨hleft, count, value, rfl⟩ := rleContinue_cases ht
  · exact h.data.normalEnd
  · exact h.data.raiseError rfl
  · exact pairStep_keeps_inv h hp hleft count value

/-- The start step of PAL_CONVERT keeps the invariant: it goes on at legal depths only (R191). -/
theorem palStart_keeps_inv {s : State} (h : MachineInv s) (hp : s.phase = .palStart) : MachineInv (palStart s) := by
  by_cases hd : legalDepth (srcDepth s.cfg.palCfg) = true ∧ legalDepth (dstDepth s.cfg.palCfg) = true
  · rw [palStart_legal hd.1 hd.2]
    exact h.goesOn (by simp [hp]) rfl Phase.noConfusion ⟨h.buffers, h.inPosEven, h.cursor⟩ hd
  · rw [palStart_refused hd]
    exact h.data.raiseError rfl

/-- What follows a component keeps the invariant (R190). -/
theorem palAdvance_keeps_inv {s : State} {n : Fin 768} (h : MachineInv s) (hp : s.phase = .palComponent n) :
    MachineInv (palAdvance n s) := by
  have hdepths := h.phase
  simp only [PhaseInv, hp] at hdepths
  by_cases hn : n.val + 1 < 768
  · rw [palAdvance_more hn]
    exact h.goesOn (by simp [hp]) rfl Phase.noConfusion ⟨h.buffers, h.inPosEven, h.cursor⟩ hdepths
  · rw [palAdvance_last hn]
    exact h.data.normalEnd

/-- A component step keeps the invariant (R193). -/
theorem palComponentStep_keeps_inv {s t : State} {n : Fin 768} (h : MachineInv s) (hp : s.phase = .palComponent n)
    (ht : palComponentStep n s = .next t) : MachineInv t := by
  obtain ⟨v, -, hstep⟩ | hstep := palComponentStep_cases n s
  all_goals cases hstep.symm.trans ht
  have hstored : MachineInv (storeComponent n.val v s) := memWrite_keeps_inv h (sp := .pal) (bankAddr_lt _ n.isLt) _
  exact palAdvance_keeps_inv hstored hp

/-- The start step of BMP_EMIT keeps the invariant: byte 0 of a legal file comes next, once the sink answered `ok` (R211). -/
theorem bmpStart_keeps_inv {s : State} (h : MachineInv s) (hp : s.phase = .bmpStart) : MachineInv (bmpStart s) := by
  obtain ⟨-, hstart⟩ | ⟨hlegal, sink, draws, hstart | hstart⟩ := bmpStart_cases s
  all_goals rw [hstart]
  · exact DataInv.raiseError rfl ⟨h.buffers, h.inPosEven, h.cursor⟩
  · have hsize : 0 < cfgFileSize s := by simp only [cfgFileSize, bmpFileSize, bmpPixOff]; omega
    exact h.goesOn (by simp [hp]) rfl Phase.noConfusion ⟨h.buffers, h.inPosEven, h.cursor⟩ ⟨hlegal, hsize, rfl, rfl⟩
  · exact DataInv.raiseError rfl ⟨h.buffers, h.inPosEven, h.cursor⟩

/-- What follows an accepted byte keeps the invariant: `OUT_COUNT` counts the byte that comes next (R218). -/
theorem bmpAdvance_keeps_inv {s : State} {o : Nat} (h : MachineInv s) (hp : s.phase = .bmpByte o) :
    MachineInv (bmpAdvance o s) := by
  have hphase := h.phase
  simp only [PhaseInv, hp] at hphase
  obtain ⟨hlegal, -, -, hopen⟩ := hphase
  by_cases ho : o + 1 < cfgFileSize s
  · have hcount : (BitVec.ofNat 32 (o + 1)).toNat = o + 1 := by
      rw [BitVec.toNat_ofNat, Nat.mod_eq_of_lt (Nat.lt_trans ho (cfgFileSize_lt s))]
    rw [bmpAdvance_more ho]
    exact h.goesOn (by simp [hp]) rfl Phase.noConfusion ⟨h.buffers, h.inPosEven, h.cursor⟩ ⟨hlegal, ho, hcount, hopen⟩
  · rw [bmpAdvance_last ho]
    exact DataInv.normalEnd ⟨h.buffers, h.inPosEven, h.cursor⟩

/-- A byte step keeps the invariant (R218). -/
theorem bmpByteStep_keeps_inv {s t : State} {o : Nat} (h : MachineInv s) (hp : s.phase = .bmpByte o)
    (ht : bmpByteStep o s = .next t) : MachineInv t := by
  obtain ⟨b, sink, draws, -, hstep | hstep⟩ | ⟨f, -, hstep⟩ := bmpByteStep_cases o s
  all_goals cases hstep.symm.trans ht
  · exact bmpAdvance_keeps_inv (outWrite_keeps_inv h o b sink draws) hp
  · exact DataInv.raiseError rfl ⟨h.buffers, h.inPosEven, h.cursor⟩

/-- The engine's step keeps the invariant, in each phase of each command. -/
theorem engineStep_keeps_inv {s t : State} (h : MachineInv s) (ht : engineStep s = .next t) : MachineInv t := by
  cases hp : s.phase with
  | idle => cases (engineStep_idle hp).symm.trans ht; exact h
  | nop => cases (engineStep_nop hp).symm.trans ht; exact h.data.normalEnd
  | reserved w => cases (engineStep_reserved hp).symm.trans ht; exact h.data.raiseError rfl
  | rleStart => cases (engineStep_rleStart hp).symm.trans ht; exact rleStart_keeps_inv h hp
  | rlePairs => exact rleContinue_keeps_inv h hp ((engineStep_rlePairs hp).symm.trans ht)
  | palStart => cases (engineStep_palStart hp).symm.trans ht; exact palStart_keeps_inv h hp
  | palComponent n => exact palComponentStep_keeps_inv h hp ((engineStep_palComponent hp).symm.trans ht)
  | bmpStart => cases (engineStep_bmpStart hp).symm.trans ht; exact bmpStart_keeps_inv h hp
  | bmpByte o => exact bmpByteStep_keeps_inv h hp ((engineStep_bmpByte hp).symm.trans ht)

/-! ### The invariant: the host's and the platform's moves -/

/-- The phase a command word enters asks nothing of the state, and a reserved word is none of the four commands (R140). -/
theorem phaseInv_of_commandPhase {w : Word} {s : State} (h : s.phase = commandPhase w) : PhaseInv s := by
  rw [commandPhase_eq] at h
  split_ifs at h with h0 h1 h2 h3
  all_goals simp only [PhaseInv, h]
  simpa [Instr.wellFormed] using ⟨⟨⟨h0, h1⟩, h2⟩, h3⟩

/-- Acceptance keeps the invariant (R140). -/
theorem acceptCommand_keeps_inv {s : State} (h : MachineInv s) (w : Word) : MachineInv (acceptCommand w s) where
  status := statusInv_accepted
  busy := by simp [commandPhase_ne_idle]
  buffers := h.buffers
  inPosEven := h.inPosEven
  cursor := h.cursor
  phase := phaseInv_of_commandPhase rfl

/-- A dropped command keeps the invariant: only `OVR` moves (R142). -/
theorem dropCommand_keeps_inv {s : State} (h : MachineInv s) : MachineInv (dropCommand s) where
  status := statusInv_dropped h.status
  busy := by simpa using h.busy
  buffers := h.buffers
  inPosEven := h.inPosEven
  cursor := h.cursor
  phase := h.phase

/-- Every answered host access keeps the invariant. -/
theorem busAccess_keeps_inv {a : BusAccess} {s t : State} (h : MachineInv s) (ht : busAccess a s = .next t) :
    MachineInv t := by
  obtain ⟨_, _, rfl⟩ | ⟨r, w, rfl⟩ | ⟨-, sp, addr, b, hlt, rfl⟩ := busAccess_cases ht
  · exact h.of_host_fields rfl
  · obtain ⟨-, hw⟩ | ⟨-, hw⟩ | ⟨_, _, _, _, _, _, hw⟩ := writeRegister_cases r w s
    all_goals rw [hw]
    · exact acceptCommand_keeps_inv h w
    · exact dropCommand_keeps_inv h
    · exact h.of_host_fields rfl
  · exact memWrite_keeps_inv h hlt b

/-- The host's move keeps the invariant. -/
theorem hostTurn_keeps_inv {s t : State} (h : MachineInv s) (ht : hostTurn s = .next t) : MachineInv t := by
  obtain ⟨a, rest, -, ha⟩ | ⟨_, _, rfl⟩ := hostTurn_cases ht
  · exact busAccess_keeps_inv (h.of_host_fields rfl) ha
  · exact h.of_host_fields rfl

/-- The reset state meets the invariant (R26, R50, R55). -/
theorem reset_inv : MachineInv State.reset where
  status := by decide
  busy := by decide
  buffers := by
    obtain ⟨hin, hras, hpal, hout⟩ := State.reset_memories_wf
    exact ⟨hin, List.forall_mem_nil _, hras, List.forall_mem_nil _, hpal, List.forall_mem_nil _, hout⟩
  inPosEven := rfl
  cursor := by decide
  phase := trivial

/-- A platform reset leaves the block in its reset values, and the sink's array as it was (R280, R281). -/
theorem platformReset_inv {s : State} (h : s.out.wf) : MachineInv (platformReset s) := by
  obtain ⟨hin, hinB, hras, hrasB, hpal, hpalB, -⟩ := reset_inv.buffers
  exact ⟨reset_inv.status, reset_inv.busy, ⟨hin, hinB, hras, hrasB, hpal, hpalB, h⟩, reset_inv.inPosEven,
    reset_inv.cursor, reset_inv.phase⟩

/-! ### The obligations -/

/-- Settles O47: each agent's move keeps the invariant, and taking the turn off does not touch it. -/
theorem everyStepKeepsTheInvariant : Obligations.EveryStepKeepsTheInvariant := by
  intro s t h hstep
  obtain ⟨rest, he | hh | ⟨-, rfl⟩⟩ := step_cases hstep
  · exact engineStep_keeps_inv (h.of_host_fields rfl) he
  · exact hostTurn_keeps_inv (h.of_host_fields rfl) hh
  · obtain ⟨-, -, -, -, -, -, hout⟩ := h.buffers
    exact platformReset_inv hout

/-- Settles O46: reset shows no error, no command runs, and every buffer is empty. -/
theorem resetMeetsTheInvariant : Obligations.ResetMeetsTheInvariant := reset_inv

/-- Settles O11: the read-only registers are the arms of `writeRegister` that keep the state, and no register stands at an
unmapped offset. -/
theorem readOnlyAndUnmappedOffsetsIgnoreWrites : Obligations.ReadOnlyAndUnmappedOffsetsIgnoreWrites := by
  refine ⟨fun r w s hr => ?_, fun a w s hlo hlt hal => ?_⟩
  · rw [busAccess_st]
    simp only [List.mem_cons, List.not_mem_nil, or_false] at hr
    obtain rfl | rfl | rfl | rfl | rfl := hr
    all_goals rfl
  · simp only [busAccess_window _ s hlt hal, regAt_unmapped hlo]
    exact ⟨rfl, rfl⟩

/-- Settles O12: each of the twelve reads is `busAccess_ld_idle` at that register. -/
theorem registerReadsAreExactWhenIdle : Obligations.RegisterReadsAreExactWhenIdle := by
  intro s hi
  have hread := busAccess_ld_idle hi
  exact ⟨hread .cmd, hread .status, hread .inLen, hread .decLimit, hread .inPos, hread .cursor, hread .palCfg,
    hread .bmpW, hread .bmpH, hread .bmpCfg, hread .outCount, hread .rasterCap⟩

/-- Settles O13: the draw is reduced into the range, and each progress register fits the word read. -/
theorem progressReadWhileBusyStaysInRange : Obligations.ProgressReadWhileBusyStaysInRange := by
  intro s hb
  have hinPos : ∀ p : Progress, p.inPos.toNat < 2 ^ 32 := fun p => Nat.lt_trans p.inPos.isLt (by decide)
  have hcursor : ∀ p : Progress, p.cursor.toNat < 2 ^ 32 := fun p => Nat.lt_trans p.cursor.isLt (by decide)
  exact ⟨⟨_, busAccess_ld .inPos s, readRegister_frame _ s, readProgress_busy_mem hb hinPos⟩,
    ⟨_, busAccess_ld .cursor s, readRegister_frame _ s, readProgress_busy_mem hb hcursor⟩,
    ⟨_, busAccess_ld .outCount s, readRegister_frame _ s, readProgress_busy_mem hb fun p => p.outCount.isLt⟩⟩

/-- Settles O16: a busy block drops the command, and every other register write stays in the configuration registers. -/
theorem registerWriteWhileBusySparesTheCommand : Obligations.RegisterWriteWhileBusySparesTheCommand := by
  intro r w s hb
  refine ⟨_, busAccess_st r w s, ?_⟩
  obtain ⟨hi, -⟩ | ⟨-, hw⟩ | ⟨_, _, _, _, _, _, hw⟩ := writeRegister_cases (some r) w s
  · simp [hb] at hi
  · rw [hw]
    exact ⟨rfl, rfl, rfl, rfl, rfl, rfl, by simpa using hb⟩
  · rw [hw]
    exact ⟨rfl, rfl, rfl, rfl, rfl, rfl, hb⟩

/-- Settles O52: each of the four kinds of instruction of `exec_cases` writes its own fields, which the premise on the
instruction names. -/
theorem eachInstructionKeepsToItsOwnState : Obligations.EachInstructionKeepsToItsOwnState := by
  intro i s t h
  obtain ⟨hi, _, _, _, _, _, _, rfl⟩ | ⟨rfl, _, _, _, rfl⟩ | ⟨rfl, _, _, _, _, _, _, _, rfl⟩ | ⟨_, _, rfl⟩ := exec_cases h
  · refine ⟨by simp, fun hrle hstream => ?_, fun _ => rfl, fun _ => ⟨rfl, rfl, rfl, rfl⟩⟩
    exact (hi.elim hrle hstream).elim
  · exact ⟨by simp, fun _ _ => ⟨rfl, rfl, rfl⟩, fun hne => (hne rfl).elim, fun _ => ⟨rfl, rfl, rfl, rfl⟩⟩
  · exact ⟨by simp, fun _ _ => ⟨rfl, rfl, rfl⟩, fun _ => rfl, fun hne => (hne rfl).elim⟩
  · exact ⟨by simp, fun _ _ => ⟨rfl, rfl, rfl⟩, fun _ => rfl, fun _ => ⟨rfl, rfl, rfl, rfl⟩⟩

/-- Settles O55: acceptance fills the note, and no move of the engine, nor of the host while a command runs, writes it. -/
theorem acceptanceNotesTheProgressRegisters : Obligations.AcceptanceNotesTheProgressRegisters := by
  refine ⟨fun w s hi => ⟨_, busAccess_st_cmd_idle hi w, rfl⟩, fun s t hb hturns hstep => ?_⟩
  obtain ⟨rest, he | hh | ⟨hreset, -⟩⟩ := step_cases hstep
  · exact engineStep_accepted (s := { s with turns := rest }) he
  · exact hostTurn_accepted_of_busy (s := { s with turns := rest }) hb hh
  · exact absurd hreset (hturns rest)

/-- Settles O44: the values are the fields of `State.reset`, and the two reads are those of an idle block. -/
theorem resetGivesTheStatedValues : Obligations.ResetGivesTheStatedValues := by
  have hread := busAccess_ld_idle (s := State.reset) (by decide)
  refine ⟨rfl, rfl, rfl, rfl, rfl, rfl, rfl, rfl, rfl, rfl, rfl, rfl, fun sp a => ?_, hread .cmd, hread .rasterCap⟩
  cases sp
  all_goals rfl

end Sys2Proof.Machine
end

section
/-! PROOFS. The statements about the buffers and the sink (20_memory.md): the host's accesses, the reads that meet an unwritten
byte, the sink's answers, then the run of BMP_EMIT into the standard sink, and the obligations. -/

namespace Sys2Proof.Machine

/-! ### Host accesses by form (R77, R78, R79) -/

/-- The one form of R77, spelled out: 32 bits wide, at a multiple of 4, inside the window. -/
theorem windowForm_iff (a : BusAccess) : windowForm a = true ↔ a.width = 32 ∧ a.addr % 4 = 0 ∧ a.addr < 256 := by
  simp only [windowForm, Bool.and_eq_true, beq_iff_eq, decide_eq_true_eq, and_assoc]
  rfl

/-- A window access of any other form is refused (R77). -/
theorem windowAccess_refused {a : BusAccess} (h : windowForm a ≠ true) (s : State) :
    windowAccess a s = .fault .refusedAccess := if_neg h

/-- A window access of the legal form is answered (R145, R146). -/
theorem windowAccess_answered {a : BusAccess} (h : windowForm a = true) (s : State) :
    ∃ t, windowAccess a s = .next t := by
  rw [windowAccess, if_pos h]
  cases a.kind with
  | read => exact ⟨_, rfl⟩
  | write w => exact ⟨_, rfl⟩

/-- A buffer access of any other width than a byte is refused (R77). -/
theorem bufferAccess_refused {a : BusAccess} (h : a.width ≠ 8) (sp : Space) (s : State) :
    bufferAccess sp a s = .fault .refusedAccess := if_pos h

/-- A byte access beyond the space has no step, whether the block is busy or not (R78; log 6). -/
theorem bufferAccess_stuck {sp : Space} {a : BusAccess} (hw : a.width = 8) (ha : spaceSize sp ≤ a.addr) (s : State) :
    bufferAccess sp a s = .fault .hostStuck := by
  rw [bufferAccess, if_neg (not_not.mpr hw), if_pos ha]

/-- An answered register read moves the returned value and the draw counter alone (R79, R146). -/
theorem windowAccess_read_frame {a : BusAccess} {s t : State} (hk : a.kind = .read) (h : windowAccess a s = .next t) :
    t = { s with readData := t.readData, readDraws := t.readDraws } := by
  unfold windowAccess at h
  split_ifs at h
  simp only [hk, Host.Outcome.next.injEq] at h
  exact h ▸ readRegister_frame _ s

/-- An answered byte read returns the byte that stands there and moves nothing else (R79, R147). -/
theorem bufferAccess_read_eq {sp : Space} {a : BusAccess} {s t : State} (hk : a.kind = .read)
    (h : bufferAccess sp a s = .next t) : ∃ b, memRead sp a.addr s = .ok b ∧ t = { s with readData := b.setWidth 32 } := by
  unfold bufferAccess at h
  split_ifs at h
  simp only [hk] at h
  cases hr : memRead sp a.addr s with
  | error f => simp [hr] at h
  | ok b =>
    simp only [hr, Host.Outcome.next.injEq] at h
    exact ⟨b, rfl, h.symm⟩

/-! ### Reads of unwritten bytes (R80) -/

theorem memRead_unwritten {sp : Space} {a : Nat} {s : State} (h : (spaceMem sp s).read a = none) :
    memRead sp a s = .error (.unwrittenRead sp a) := (memRead_error_iff sp a s _).mpr ⟨h, rfl⟩

/-- A byte read by the host, where nothing was written (R80, R147). -/
theorem busAccess_lb_unwritten {sp : Space} {a : Nat} {s : State} (hi : statusBusy s.status = false)
    (ha : a < spaceSize sp) (hr : (spaceMem sp s).read a = none) :
    busAccess (lbAccess sp a) s = .fault (.unwrittenRead sp a) := by
  simp [busAccess, lbAccess, bufferAccess, Nat.not_le.mpr ha, hi, memRead_unwritten hr]

/-- While a pair is left, an unwritten count byte stops the decoder (R80, R162). -/
theorem streamItem_unwritten_count {s : State} (h : 2 ≤ streamLeft s) (hc : s.inBuf.read s.inPos.toNat = none) :
    streamItem s = .error (.unwrittenRead .input s.inPos.toNat) := by
  rw [streamItem, if_neg (by omega), if_neg (by omega), memRead_unwritten (sp := .input) hc]

/-- Behind a written count byte, an unwritten value byte stops the decoder (R80, R162). -/
theorem streamItem_unwritten_value {s : State} {count : Byte} (h : 2 ≤ streamLeft s)
    (hc : s.inBuf.read s.inPos.toNat = some count) (hv : s.inBuf.read (s.inPos.toNat + 1) = none) :
    streamItem s = .error (.unwrittenRead .input (s.inPos.toNat + 1)) := by
  rw [streamItem, if_neg (by omega), if_neg (by omega), (memRead_ok_iff .input _ s count).mpr hc]
  simp only [memRead_unwritten (sp := .input) hv]

/-- The step of R162 stops with the fault its reading of the stream meets. -/
theorem engineStep_rlePairs_fault {s : State} {f : Fault} (hp : s.phase = .rlePairs) (h : streamItem s = .error f) :
    engineStep s = .fault f := by
  rw [engineStep_rlePairs hp, rleContinue, h]

/-- A component step stops at an unwritten source byte (R80, R193). -/
theorem palComponentStep_unwritten {s : State} {n : Fin 768}
    (h : s.pal.read (bankAddr (srcBank s.cfg.palCfg) n.val) = none) :
    palComponentStep n s = .fault (.unwrittenRead .pal (bankAddr (srcBank s.cfg.palCfg) n.val)) := by
  rw [palComponentStep, memRead_unwritten (sp := .pal) h]

/-- A byte step stops with the fault its reading of the file byte meets (R80, R218). -/
theorem engineStep_bmpByte_fault {s : State} {o : Nat} {f : Fault} (hp : s.phase = .bmpByte o)
    (h : fileByte o s = .error f) : engineStep s = .fault f := by
  rw [engineStep_bmpByte hp, bmpByteStep, h]

/-! ### The sink's answers (R85) -/

theorem sinkOpenCall_standard {s : State} {capacity : Nat} (h : s.sink = .standard capacity) :
    sinkOpenCall s = (true, { s with sinkOpen := true }) := by
  simp only [sinkOpenCall, h]

/-- Any other sink opens with the answer it draws, and its open state is that answer (log 10, log 11). -/
theorem sinkOpenCall_drawn {s : State} {answers : List Bool} (h : s.sink = .drawn answers) :
    sinkOpenCall s =
      ((drawSinkAnswer answers s).1, { (drawSinkAnswer answers s).2 with sinkOpen := (drawSinkAnswer answers s).1 }) := by
  simp only [sinkOpenCall, h]

/-- Whatever the sink answers to a write, that answer is given back, and the byte is stored exactly where it is `ok`. -/
theorem sinkWriteCall_eq (k : Nat) (b : Byte) (s : State) :
    sinkWriteCall k b s =
      ((sinkAccepts k s).1,
        { (sinkAccepts k s).2 with
          out := if (sinkAccepts k s).1 = true then (sinkAccepts k s).2.out.write k b else (sinkAccepts k s).2.out }) := by
  cases h : (sinkAccepts k s).1 <;> simp [sinkWriteCall, h]

theorem sinkAccepts_standard {s : State} {capacity : Nat} (h : s.sink = .standard capacity) (k : Nat) :
    sinkAccepts k s = (decide (k < capacity), s) := by
  simp only [sinkAccepts, h]

theorem sinkAccepts_drawn {s : State} {answers : List Bool} (h : s.sink = .drawn answers) (k : Nat) :
    sinkAccepts k s = drawSinkAnswer answers s := by
  simp only [sinkAccepts, h]

/-! ### Every byte of a legal file can be read (R211 to R217) -/

/-- The `W`·`H` raster bytes and the palette bank that a BMP_EMIT reads have been written (R210, R283). -/
def ImageWritten (s : State) : Prop :=
  (∀ a, a < cfgWidth s * cfgHeight s → s.raster.read a ≠ none) ∧
  (∀ n, n < 768 → s.pal.read (bankAddr s.cfg.bmpCfg n) ≠ none)

theorem imageWritten_of_bmpStart {s : State} (hp : s.phase = .bmpStart) (h : InputsWritten s) : ImageWritten s := by
  simp only [InputsWritten, hp] at h
  exact h

theorem memRead_ok_of_written {sp : Space} {a : Nat} {s : State} (h : (spaceMem sp s).read a ≠ none) :
    ∃ b, memRead sp a s = .ok b := by
  obtain ⟨b, hb⟩ := Option.ne_none_iff_exists'.mp h
  exact ⟨b, (memRead_ok_iff sp a s b).mpr hb⟩

/-- A palette byte of the file is a constant or a byte of the bank (R216). -/
theorem sourceByte_palette_ok {s : State} (hw : ImageWritten s) {i : Nat} (hi : i < 256) (c : Nat) :
    ∃ b, sourceByte (bmpPaletteSource s.cfg.bmpCfg i c) s = .ok b := by
  unfold bmpPaletteSource
  split_ifs
  · exact memRead_ok_of_written (sp := .pal) (hw.2 _ (by omega))
  · exact ⟨_, rfl⟩

/-- A pixel byte of the file is a pad byte or a byte of the raster's `W`·`H` (R217). -/
theorem sourceByte_pixel_ok {s : State} (hw : ImageWritten s) {e : Nat} (he : e < cfgHeight s) (j : Nat) :
    ∃ b, sourceByte (bmpPixelSource (cfgWidth s) (cfgHeight s) e j) s = .ok b := by
  unfold bmpPixelSource
  split_ifs with hj
  · refine memRead_ok_of_written (sp := .raster) (hw.1 _ ?_)
    calc (cfgHeight s - 1 - e) * cfgWidth s + j < (cfgHeight s - 1 - e + 1) * cfgWidth s := by
          rw [Nat.add_one_mul]; omega
      _ ≤ cfgHeight s * cfgWidth s := Nat.mul_le_mul_right _ (by omega)
      _ = cfgWidth s * cfgHeight s := Nat.mul_comm _ _
  · exact ⟨_, rfl⟩

/-- With its image written, every byte of the file a BMP_EMIT asks for has a value (R80, R218, R219). -/
theorem fileByte_ok {s : State} (hw : ImageWritten s) {o : Nat} (ho : o < cfgFileSize s) : ∃ b, fileByte o s = .ok b := by
  unfold fileByte bmpSource
  split_ifs with hheader hpalette
  · exact ⟨_, rfl⟩
  · exact sourceByte_palette_ok hw (by unfold bmpPixOff at hpalette; omega) _
  · refine sourceByte_pixel_ok hw (Nat.div_lt_of_lt_mul ?_) _
    unfold cfgFileSize bmpFileSize bmpImageSize at ho
    omega

/-- Every file has at least its headers (R212). -/
theorem cfgFileSize_ne_zero (s : State) : cfgFileSize s ≠ 0 := by
  simp only [cfgFileSize, bmpFileSize, bmpPixOff]
  omega

/-! ### The emission into the standard sink (R86, R218) -/

/-- The array of the sink once it has accepted the first `k` bytes of the file that `s` asks for (R86): they stand at their
offsets, and the rest is as it was (log 10). -/
def HoldsPrefix (s : State) (k : Nat) (out : Memory) : Prop :=
  (∀ o, o < k → ∃ b, fileByte o s = .ok b ∧ out.read o = some b) ∧ (∀ a, k ≤ a → out.read a = s.out.read a)

theorem holdsPrefix_zero (s : State) : HoldsPrefix s 0 s.out := ⟨by omega, fun _ _ => rfl⟩

/-- The next byte of the file, stored at its offset, makes the prefix one longer. -/
theorem HoldsPrefix.write {s : State} {k : Nat} {out : Memory} {b : Byte} (h : HoldsPrefix s k out)
    (hb : fileByte k s = .ok b) : HoldsPrefix s (k + 1) (out.write k b) := by
  obtain ⟨hprefix, hrest⟩ := h
  refine ⟨fun o ho => ?_, fun a ha => ?_⟩
  · rw [Memory.read_write]
    by_cases hok : o = k
    · exact ⟨b, hok ▸ hb, if_pos hok⟩
    · rw [if_neg hok]
      exact hprefix o (by omega)
  · rw [Memory.read_write, if_neg (by omega)]
    exact hrest a (by omega)

/-- The state of a BMP_EMIT that `s` started, before the byte step of offset `o`, with the sink's array as given. -/
def emitting (s : State) (out : Memory) (o : Nat) : State :=
  { s with out := out, outCount := BitVec.ofNat 32 o, sinkOpen := true, phase := .bmpByte o }

/-- No byte of the file depends on what an emission changes (R219). -/
theorem fileByte_emitting (o : Nat) (s : State) (out : Memory) (k : Nat) :
    fileByte o (emitting s out k) = fileByte o s := rfl

/-- The start step at legal dimensions opens the standard sink, and byte 0 is next (R211). -/
theorem engineStep_bmpStart_standard {s : State} {capacity : Nat} (hp : s.phase = .bmpStart)
    (hlegal : bmpRefused (cfgWidth s) (cfgHeight s) = false) (hsink : s.sink = .standard capacity) :
    engineStep s = .next (emitting s s.out 0) := by
  have hopen : sinkOpenCall { s with outCount := 0 } = (true, { s with outCount := 0, sinkOpen := true }) :=
    sinkOpenCall_standard hsink
  rw [engineStep_bmpStart hp, bmpStart_opens hlegal, hopen]
  rfl

/-- Below the capacity a byte step stores its byte and advances (R85, R218). -/
theorem engineStep_emitting_accepted {s : State} {capacity o : Nat} {b : Byte} (hsink : s.sink = .standard capacity)
    (hb : fileByte o s = .ok b) (ho : o < capacity) (out : Memory) :
    engineStep (emitting s out o) = .next (bmpAdvance o (emitting s (out.write o b) o)) := by
  have hwrite : sinkWriteCall o b (emitting s out o) = (true, emitting s (out.write o b) o) := by
    rw [sinkWriteCall_standard (s := emitting s out o) hsink, if_pos ho]; rfl
  rw [engineStep_bmpByte rfl, bmpByteStep_ok ((fileByte_emitting o s out o).trans hb), hwrite]
  rfl

/-- At the capacity the byte is refused and the command ends with `IOFailure` (R85, R218). -/
theorem engineStep_emitting_refused {s : State} {capacity : Nat} {b : Byte} (hsink : s.sink = .standard capacity)
    (hb : fileByte capacity s = .ok b) (out : Memory) :
    engineStep (emitting s out capacity) = .next (raiseError .ioFailure (emitting s out capacity)) := by
  have hwrite : sinkWriteCall capacity b (emitting s out capacity) = (false, emitting s out capacity) := by
    rw [sinkWriteCall_standard (s := emitting s out capacity) hsink, if_neg (Nat.lt_irrefl _)]
  rw [engineStep_bmpByte rfl, bmpByteStep_ok ((fileByte_emitting capacity s out capacity).trans hb), hwrite]
  rfl

section Emission

variable {s : State} {capacity : Nat} (hp : s.phase = .bmpStart) (hw : ImageWritten s)
  (hlegal : bmpRefused (cfgWidth s) (cfgHeight s) = false) (hsink : s.sink = .standard capacity)

include hp hw hlegal hsink

/-- After the start step and `k` byte steps the sink holds the first `k` bytes and byte `k` is next, as long as `k` is inside
the file and the sink has had room. -/
theorem engineRun_emission {k : Nat} (hsize : k < cfgFileSize s) (hcap : k ≤ capacity) :
    ∃ out, HoldsPrefix s k out ∧ ∀ n, engineRun (1 + k + n) s = engineRun n (emitting s out k) := by
  induction k with
  | zero =>
    refine ⟨s.out, holdsPrefix_zero s, fun n => ?_⟩
    rw [show 1 + 0 + n = n + 1 by omega]
    exact engineRun_succ n (by simp [hp]) (engineStep_bmpStart_standard hp hlegal hsink)
  | succ k ih =>
    obtain ⟨out, hholds, hrun⟩ := ih (by omega) (by omega)
    obtain ⟨b, hb⟩ := fileByte_ok hw (o := k) (by omega)
    refine ⟨out.write k b, hholds.write hb, fun n => ?_⟩
    have hstep : engineStep (emitting s out k) = .next (emitting s (out.write k b) (k + 1)) := by
      rw [engineStep_emitting_accepted hsink hb (by omega), bmpAdvance_more (s := emitting s (out.write k b) k) hsize]
      rfl
    calc engineRun (1 + (k + 1) + n) s = engineRun (n + 1) (emitting s out k) := by rw [← hrun]; congr 1; omega
      _ = engineRun n (emitting s (out.write k b) (k + 1)) := engineRun_succ n Phase.noConfusion hstep

/-- Where the whole file fits, the last byte step ends the command normally (R218). -/
theorem engineRun_emission_fits (hfits : cfgFileSize s ≤ capacity) :
    ∃ out, HoldsPrefix s (cfgFileSize s) out ∧
      engineRun (1 + cfgFileSize s) s = normalEnd (emitting s out (cfgFileSize s)) := by
  obtain ⟨last, hlast⟩ := Nat.exists_eq_add_one_of_ne_zero (cfgFileSize_ne_zero s)
  obtain ⟨out, hholds, hrun⟩ := engineRun_emission hp hw hlegal hsink (k := last) (by omega) (by omega)
  obtain ⟨b, hb⟩ := fileByte_ok hw (o := last) (by omega)
  have hstep := engineStep_emitting_accepted hsink hb (by omega) out
  have hend : ¬ last + 1 < cfgFileSize (emitting s (out.write last b) last) := Nat.not_lt.mpr hlast.le
  refine ⟨out.write last b, hlast ▸ hholds.write hb, ?_⟩
  rw [hlast]
  calc engineRun (1 + (last + 1)) s = engineRun 1 (emitting s out last) := hrun 1
    _ = bmpAdvance last (emitting s (out.write last b) last) := engineRun_succ 0 Phase.noConfusion hstep
    _ = normalEnd (emitting s (out.write last b) (last + 1)) := bmpAdvance_last hend

/-- Where it does not fit, the byte at the capacity is refused, after every byte below it was accepted (R86, R218). -/
theorem engineRun_emission_full (hfull : capacity < cfgFileSize s) :
    ∃ out, HoldsPrefix s capacity out ∧
      engineRun (2 + capacity) s = raiseError .ioFailure (emitting s out capacity) := by
  obtain ⟨out, hholds, hrun⟩ := engineRun_emission hp hw hlegal hsink hfull (Nat.le_refl _)
  obtain ⟨b, hb⟩ := fileByte_ok hw hfull
  have hstep := engineStep_emitting_refused hsink hb out
  refine ⟨out, hholds, ?_⟩
  calc engineRun (2 + capacity) s = engineRun 1 (emitting s out capacity) := by rw [← hrun]; congr 1; omega
    _ = raiseError .ioFailure (emitting s out capacity) := engineRun_succ 0 Phase.noConfusion hstep

end Emission

/-- `OUT_COUNT` counts the accepted bytes without wrapping (R35). -/
theorem emitting_outCount {s : State} {k : Nat} (hk : k ≤ cfgFileSize s) (out : Memory) :
    (emitting s out k).outCount.toNat = k := by
  have := cfgFileSize_lt s
  exact (BitVec.toNat_ofNat k 32).trans (Nat.mod_eq_of_lt (by omega))

/-- The `STATUS` an `IOFailure` leaves (R250, R252). -/
theorem statusError_ioFailure (st : BitVec 8) : statusError .ioFailure st = 0x56 ||| (st &&& 0x08) := rfl

/-! ### The obligations -/

/-- Settles O42: the run to the end of the file, or to the byte at the capacity, by induction over the accepted bytes. -/
theorem bmpFileReachesTheSink : Obligations.BmpFileReachesTheSink := by
  intro s capacity hp hinputs hlegal hsink
  have hw := imageWritten_of_bmpStart hp hinputs
  by_cases hfits : cfgFileSize s ≤ capacity
  · obtain ⟨out, ⟨hprefix, hrest⟩, hrun⟩ := engineRun_emission_fits hp hw hlegal hsink hfits
    simp only [if_pos hfits, Nat.min_eq_right hfits]
    exact ⟨_, _, rfl, hrun, rfl, emitting_outCount (Nat.le_refl _) out, hprefix, hrest⟩
  · have hfull : capacity < cfgFileSize s := Nat.not_le.mp hfits
    obtain ⟨out, ⟨hprefix, hrest⟩, hrun⟩ := engineRun_emission_full hp hw hlegal hsink hfull
    simp only [if_neg hfits, Nat.min_eq_left hfull.le, ← statusError_ioFailure]
    exact ⟨_, _, rfl, hrun, rfl, emitting_outCount hfull.le out, hprefix, hrest⟩

/-- Settles O15: an answered read is a register read, which moves the returned value and the draw counter, or a byte read,
which moves the returned value. -/
theorem hostReadsHaveNoSideEffect : Obligations.HostReadsHaveNoSideEffect := by
  intro a s t hk h
  cases ht : a.target with
  | window =>
    rw [busAccess, ht] at h
    exact windowAccess_read_frame hk h
  | buffer sp =>
    rw [busAccess, ht] at h
    obtain ⟨b, -, rfl⟩ := bufferAccess_read_eq hk h
    rfl

/-- Settles O20: each reader's step hands on the fault of its one read. -/
theorem unwrittenByteReadFaults : Obligations.UnwrittenByteReadFaults := by
  refine ⟨fun sp a s => busAccess_lb_unwritten, fun s hp hleft hc => ?_, fun s hp hleft hc hv => ?_,
    fun n s hp hr => ?_, fun o a s hp hsrc hr => ?_, fun o a s hp hsrc hr => ?_⟩
  · exact engineStep_rlePairs_fault hp (streamItem_unwritten_count hleft hc)
  · obtain ⟨count, hcount⟩ := Option.ne_none_iff_exists'.mp hc
    exact engineStep_rlePairs_fault hp (streamItem_unwritten_value hleft hcount hv)
  · rw [engineStep_palComponent hp, palComponentStep_unwritten hr]
  · refine engineStep_bmpByte_fault hp ?_
    rw [fileByte, hsrc]
    exact memRead_unwritten (sp := .raster) hr
  · refine engineStep_bmpByte_fault hp ?_
    rw [fileByte, hsrc]
    exact memRead_unwritten (sp := .pal) hr

/-- Settles O14: the window answers `windowForm` and nothing else, and a buffer checks the width first. -/
theorem accessFormsOutsideTheRuleAreRefused : Obligations.AccessFormsOutsideTheRuleAreRefused := by
  refine ⟨fun a s ht hform => ?_, fun sp a s ht hwidth => ?_, fun a s ht hwidth hal hlt => ?_⟩
  · rw [busAccess, ht]
    refine windowAccess_refused (fun h => ?_) s
    obtain ⟨hwidth, hal, -⟩ := (windowForm_iff a).mp h
    exact hform.elim (· hwidth) (· hal)
  · rw [busAccess, ht]
    exact bufferAccess_refused hwidth sp s
  · rw [busAccess, ht]
    exact windowAccess_answered ((windowForm_iff a).mpr ⟨hwidth, hal, hlt⟩) s

/-- Settles O18: the range is checked before `BUSY` and before the direction of the access (log 6). -/
theorem accessBeyondTheSpaceIsStuck : Obligations.AccessBeyondTheSpaceIsStuck :=
  fun sp a b s ha => ⟨bufferAccess_stuck (a := lbAccess sp a) rfl ha s, bufferAccess_stuck (a := sbAccess sp a b) rfl ha s⟩

/-- Settles O56: an open and a write each take one answer of the sink, which each kind of sink gives in its own way. -/
theorem sinkAnswersAreGivenOnceEach : Obligations.SinkAnswersAreGivenOnceEach := by
  intro s k b
  refine ⟨fun capacity h => ⟨sinkOpenCall_standard h, ?_⟩, fun ok rest h => ⟨sinkOpenCall_drawn h, ?_⟩,
    fun h => ⟨sinkOpenCall_drawn h, ?_⟩⟩
  · rw [sinkWriteCall_eq, sinkAccepts_standard h]
    simp only [decide_eq_true_eq]
  · rw [sinkWriteCall_eq, sinkAccepts_drawn h]
    rfl
  · rw [sinkWriteCall_eq, sinkAccepts_drawn h]
    rfl

end Sys2Proof.Machine
end

section
/-! PROOFS. The statements about the encodings (30_encoding.md): the bytes of a command word and of a pair and the decoder on
them, then what the machine's next step runs when an instruction has been decoded, and the obligations. -/

namespace Sys2Proof.Machine

/-! ### Command words (R106 to R108) -/

/-- The four little-endian bytes of a word spell that word (R70, R106). -/
theorem wordOfBytes_extracted (w : Word) :
    wordOfBytes (w.extractLsb' 0 8) (w.extractLsb' 8 8) (w.extractLsb' 16 8) (w.extractLsb' 24 8) = w := by
  unfold wordOfBytes
  rw [BitVec.extractLsb'_append_extractLsb'_eq_extractLsb' (by rfl)]
  rw [BitVec.extractLsb'_append_extractLsb'_eq_extractLsb' (by rfl)]
  rw [BitVec.extractLsb'_append_extractLsb'_eq_extractLsb' (by rfl)]
  exact BitVec.extractLsb'_eq_self

/-- The decoder reads the bytes of a word as the command map says, and consumes them all (R107). -/
theorem decode_bytesOfWord (w : Word) : decode .cmd32 (bytesOfWord w) = .ok (decodeCommand w, []) := by
  simp only [bytesOfWord, decode, wordOfBytes_extracted]

/-- The reserved words are those that are none of the four commands (R108). -/
theorem reservedCmd_wellFormed_iff (w : Word) :
    (Instr.reservedCmd w).wellFormed = true ↔ w ≠ 0 ∧ w ≠ 1 ∧ w ≠ 2 ∧ w ≠ 3 := by
  simp only [Instr.wellFormed, Bool.and_eq_true, bne_iff_ne, and_assoc]

/-- A reserved word decodes to itself (R108). -/
theorem decodeCommand_reserved {w : Word} (h : (Instr.reservedCmd w).wellFormed = true) :
    decodeCommand w = .reservedCmd w := by
  obtain ⟨h0, h1, h2, h3⟩ := (reservedCmd_wellFormed_iff w).mp h
  rw [decodeCommand, if_neg h0, if_neg h1, if_neg h2, if_neg h3]

/-- No command word is shut out (R108). -/
theorem decodeCommand_wellFormed (w : Word) : (decodeCommand w).wellFormed = true := by
  unfold decodeCommand
  split_ifs with h0 h1 h2 h3
  · rfl
  · rfl
  · rfl
  · rfl
  · exact (reservedCmd_wellFormed_iff w).mpr ⟨h0, h1, h2, h3⟩

/-- The map loses nothing of the word (R107, R108). -/
theorem encode_decodeCommand (w : Word) : encode (decodeCommand w) = bytesOfWord w := by
  unfold decodeCommand
  split_ifs with h0 h1 h2 h3
  · rw [h0]; rfl
  · rw [h1]; rfl
  · rw [h2]; rfl
  · rw [h3]; rfl
  · rfl

/-! ### The RLE stream (R100 to R104) -/

/-- Two bytes at the head of a stream are a pair, whatever follows (R103, R104). -/
theorem decode_pair (count value : Byte) (rest : List Byte) :
    decode .stream (count :: value :: rest) = .ok (decodePair count value, rest) := rfl

/-- A pair whose count is not 0 is a RUN (R102). -/
theorem decodePair_run {count : Byte} (h : (Instr.run count value).wellFormed = true) :
    decodePair count value = .run count value :=
  if_neg (bne_iff_ne.mp h)

/-- Every pair is legal (R104). -/
theorem decodePair_wellFormed (count value : Byte) : (decodePair count value).wellFormed = true := by
  unfold decodePair
  split
  · rfl
  · next h => exact bne_iff_ne.mpr h

/-- A pair loses nothing of its two bytes (R102). -/
theorem encode_decodePair (count value : Byte) : encode (decodePair count value) = [count, value] := by
  unfold decodePair
  split
  · next h => rw [h]; rfl
  · rfl

/-- RUN and RUN0 are the pairs, and nothing else of the stream but the tail is an instruction (R102, R103). -/
theorem eq_decodePair_of_stream {i : Instr} (hwf : i.wellFormed = true) (hf : i.format = .stream) (ht : i ≠ .tail) :
    ∃ count value, i = decodePair count value := by
  cases i with
  | run0 value => exact ⟨0, value, rfl⟩
  | run count value => exact ⟨count, value, (decodePair_run hwf).symm⟩
  | tail => exact absurd rfl ht
  | nop | rleDecode | palConvert | bmpEmit | reservedCmd => cases hf

/-- An encoded pair at the head of a stream is read first, and the stream goes on after it (R100, R163). -/
theorem decodeStream_encode_append {i : Instr} (hwf : i.wellFormed = true) (hf : i.format = .stream) (ht : i ≠ .tail)
    (rest : List Byte) : decodeStream (encode i ++ rest) = i :: decodeStream rest := by
  obtain ⟨count, value, rfl⟩ := eq_decodePair_of_stream hwf hf ht
  rw [encode_decodePair]
  rfl

/-- Any bytes may follow a stream of encoded pairs: they are decoded where the pairs end, by induction over the pairs. -/
theorem decodeStream_flatMap_encode_append {is : List Instr}
    (h : ∀ i ∈ is, i.wellFormed = true ∧ i.format = .stream ∧ i ≠ .tail) (rest : List Byte) :
    decodeStream (is.flatMap encode ++ rest) = is ++ decodeStream rest := by
  induction is with
  | nil => rfl
  | cons i is ih =>
    obtain ⟨hwf, hf, ht⟩ := h i List.mem_cons_self
    rw [List.flatMap_cons, List.append_assoc, decodeStream_encode_append hwf hf ht,
      ih fun j hj => h j (List.mem_cons_of_mem i hj), List.cons_append]

/-! ### Round trips (R105, R109) -/

/-- Decoding what the encoder writes gives the instruction back with no byte left. -/
theorem decode_encode {i : Instr} (h : i.wellFormed = true) : decode i.format (encode i) = .ok (i, []) := by
  cases i with
  | nop => exact decode_bytesOfWord 0
  | rleDecode => exact decode_bytesOfWord 1
  | palConvert => exact decode_bytesOfWord 2
  | bmpEmit => exact decode_bytesOfWord 3
  | reservedCmd w => exact (decode_bytesOfWord w).trans (by rw [decodeCommand_reserved h])
  | run0 value => exact decode_pair 0 value []
  | run count value => exact (decode_pair count value []).trans (by rw [decodePair_run h])
  | tail => rfl

/-- A table number of 32 bits is a command word (R109). -/
theorem decodeTableWord_command (n : Nat) : decodeTableWord 32 n = some (decodeCommand (BitVec.ofNat 32 n)) := by
  simp [decodeTableWord, tableBytes, decode_bytesOfWord]

/-- A table number of 16 bits is a pair with its count in bits 15:8 and its value in bits 7:0 (R105). -/
theorem decodeTableWord_pair (count value : Byte) :
    decodeTableWord 16 (count.toNat * 256 + value.toNat) = some (decodePair count value) := by
  have hv := value.isLt
  have hcount : BitVec.ofNat 8 ((count.toNat * 256 + value.toNat) / 256) = count := by
    rw [show (count.toNat * 256 + value.toNat) / 256 = count.toNat by omega, BitVec.ofNat_toNat, BitVec.setWidth_eq]
  have hvalue : BitVec.ofNat 8 (count.toNat * 256 + value.toNat) = value := by
    apply BitVec.eq_of_toNat_eq
    rw [BitVec.toNat_ofNat]
    omega
  simp [decodeTableWord, tableBytes, pairBytesOfTable, decode_pair, hcount, hvalue]

/-- Decoding the opcode table's number of an instruction gives it back. -/
theorem decodeTableWord_tableWord {i : Instr} (h : i.wellFormed = true) :
    decodeTableWord i.tableBits i.tableWord = some i := by
  cases i with
  | nop => exact decodeTableWord_command 0
  | rleDecode => exact decodeTableWord_command 1
  | palConvert => exact decodeTableWord_command 2
  | bmpEmit => exact decodeTableWord_command 3
  | reservedCmd w =>
    exact (decodeTableWord_command w.toNat).trans (by rw [BitVec.ofNat_toNat, BitVec.setWidth_eq, decodeCommand_reserved h])
  | run0 value => simpa [decodePair, Instr.tableBits, Instr.tableWord] using decodeTableWord_pair 0 value
  | run count value => exact (decodeTableWord_pair count value).trans (by rw [decodePair_run h])
  | tail => rfl

/-- An instruction of the stream is shorter than a command word, so its bytes are no word's (R100, R103, R106). -/
theorem encode_ne_bytesOfWord {i : Instr} (h : i.format = .stream) (w : Word) : encode i ≠ bytesOfWord w := by
  cases i with
  | run0 | run | tail => simp [encode, bytesOfWord]
  | nop | rleDecode | palConvert | bmpEmit | reservedCmd => cases h

/-- No two instructions share a command word (R107, R108). -/
theorem eq_decodeCommand_of_encode {i : Instr} {w : Word} (hwf : i.wellFormed = true) (h : encode i = bytesOfWord w) :
    i = decodeCommand w := by
  have hback := decode_encode hwf
  cases hf : i.format with
  | stream => exact absurd h (encode_ne_bytesOfWord hf w)
  | cmd32 =>
    rw [hf, h, decode_bytesOfWord] at hback
    injection hback with hback
    exact (Prod.ext_iff.mp hback).1.symm

/-! ### The step that runs a decoded instruction (R255) -/

/-- Where no order of moves is laid down, the step is the default move (log 2). -/
theorem step_of_no_turns {s : State} (h : s.turns = []) : step s = defaultTurn s := by
  rw [step, moveNext, h]

/-- By default the engine moves while a command runs (log 2). -/
theorem defaultTurn_of_running {s : State} (h : s.phase ≠ .idle) : defaultTurn s = engineStep s := by
  unfold defaultTurn
  split
  · contradiction
  · rfl

/-- While a command runs, the engine moves where no order of moves is laid down, and on its own turn (log 2). -/
theorem step_of_running {s : State} (h : s.phase ≠ .idle) :
    (s.turns = [] → step s = engineStep s) ∧
    (∀ rest, s.turns = .engine :: rest → step s = engineStep { s with turns := rest }) := by
  refine ⟨fun ht => ?_, fun rest ht => ?_⟩
  · rw [step_of_no_turns ht, defaultTurn_of_running h]
  · rw [step, moveNext, ht]

/-- The engine's step at a pair of written bytes runs the decoded pair (R162). -/
theorem engineStep_pair {s : State} {count value : Byte} (hp : s.phase = .rlePairs) (hleft : 2 ≤ streamLeft s)
    (hc : s.inBuf.read s.inPos.toNat = some count) (hv : s.inBuf.read (s.inPos.toNat + 1) = some value) :
    engineStep s = exec (decodePair count value) s := by
  rw [engineStep_rlePairs hp, rleContinue, streamItem_pair hleft hc hv, exec_decodePair]

/-- The engine's step at the last byte of an odd stream runs the tail (R103, R166). -/
theorem engineStep_tail {s : State} (hp : s.phase = .rlePairs) (hleft : streamLeft s = 1) :
    engineStep s = exec .tail s := by
  rw [engineStep_rlePairs hp, rleContinue, streamItem_lone hleft]
  rfl

/-- In the phase acceptance enters for a word, the engine's step runs the command the word decodes to (R140). -/
theorem engineStep_commandPhase {s : State} {w : Word} (h : s.phase = commandPhase w) :
    engineStep s = exec (decodeCommand w) s := by
  rw [commandPhase_eq] at h
  unfold decodeCommand
  split_ifs at h ⊢ <;> simp only [engineStep, currentInstr, h]

/-- A command the host writes to an idle block is accepted in the machine's next step (R140; log 2). -/
theorem step_accepts {s : State} {w : Word} {rest : List HostOp} (hp : s.phase = .idle)
    (hb : statusBusy s.status = false) (ht : s.turns = []) (hin : s.inbox = .access (stAccess .cmd w) :: rest) :
    step s = .next (acceptCommand w { s with inbox := rest }) := by
  rw [step_of_no_turns ht, defaultTurn, hp, hostTurn, hin]
  exact busAccess_st_cmd_idle (s := { s with inbox := rest }) hb w

/-! ### The obligations -/

/-- Settles O2: the stream of pairs ends in nothing, or in one byte more. -/
theorem streamOfPairsDecodesBack : Obligations.StreamOfPairsDecodesBack := by
  intro is h
  refine ⟨?_, fun b => decodeStream_flatMap_encode_append h [b]⟩
  simpa [decodeStream] using decodeStream_flatMap_encode_append h []

/-- Settles O1: the two round trips, one through the stored bytes and one through the table's number. -/
theorem encodedInstrDecodesBack : Obligations.EncodedInstrDecodesBack :=
  fun _ h => ⟨decode_encode h, decodeTableWord_tableWord h⟩

/-- Settles O3: the command map and the encoder are inverse to each other on command words. -/
theorem everyCommandWordHasOneMeaning : Obligations.EveryCommandWordHasOneMeaning :=
  fun w => ⟨decode_bytesOfWord w, decodeCommand_wellFormed w, encode_decodeCommand w,
    fun _ hwf h => eq_decodeCommand_of_encode hwf h⟩

/-- Settles O4: `decodePair` is the split on the count, total and without loss. -/
theorem everyPairEncodingIsLegal : Obligations.EveryPairEncodingIsLegal :=
  fun count value rest => ⟨decode_pair count value rest, decodePair_wellFormed count value, encode_decodePair count value⟩

/-- Settles O5: the five command words go through the command map, and the stream's bytes are read as pairs and a tail. -/
theorem specWordsDecodeAsWritten : Obligations.SpecWordsDecodeAsWritten :=
  ⟨decode_bytesOfWord 0, decode_bytesOfWord 1, decode_bytesOfWord 2, decode_bytesOfWord 3, decode_bytesOfWord 0x11, rfl,
    decode_pair 0 0x7F [], rfl⟩

/-- Settles O48: the engine moves, and its step at the two bytes, or at the lone one, is that of the decoded instruction;
taking the turn off moves nothing of the stream. -/
theorem stepRunsTheDecodedPair : Obligations.StepRunsTheDecodedPair := by
  refine ⟨fun s count value i hp hleft hc hv hi => ?_, fun s b i hp hleft hi => ?_⟩
  · obtain ⟨hdefault, hturn⟩ := step_of_running (s := s) (by simp [hp])
    rw [decode_pair] at hi
    cases hi
    exact ⟨fun ht => (hdefault ht).trans (engineStep_pair hp hleft hc hv),
      fun rest ht => (hturn rest ht).trans (engineStep_pair hp hleft hc hv)⟩
  · obtain ⟨hdefault, hturn⟩ := step_of_running (s := s) (by simp [hp])
    cases hi
    exact ⟨fun ht => (hdefault ht).trans (engineStep_tail hp hleft),
      fun rest ht => (hturn rest ht).trans (engineStep_tail hp hleft)⟩

/-- Settles O49: acceptance leaves the word's command running and no order of moves, so the engine moves next. -/
theorem stepRunsTheAcceptedCommand : Obligations.StepRunsTheAcceptedCommand := by
  intro s w i rest hp hb ht hin hi
  rw [decode_bytesOfWord] at hi
  cases hi
  obtain ⟨hdefault, -⟩ := step_of_running (s := acceptCommand w { s with inbox := rest }) (commandPhase_ne_idle w)
  exact ⟨_, step_accepts hp hb ht hin, rfl, (hdefault ht).trans (engineStep_commandPhase rfl)⟩

end Sys2Proof.Machine
end

section
/-! PROOFS. The statements about the commands and the register window (40_command.md): what a configuration register holds after
a write, the instruction that runs in each phase, the bound on the engine's steps, and the obligations. -/

namespace Sys2Proof.Machine

/-! ### Configuration registers (R22, R145, R146) -/

/-- Keeping the low `k` bits of a word, and reading them zero-extended, is the mask of those bits. -/
theorem setWidth_setWidth_eq_and_mask {k : Nat} (hk : k ≤ 32) (w : Word) :
    (w.setWidth k).setWidth 32 = w &&& BitVec.ofNat 32 (2 ^ k - 1) := by
  have hle : 2 ^ k ≤ 2 ^ 32 := Nat.pow_le_pow_right (by decide) hk
  have hlow : w.toNat % 2 ^ k < 2 ^ 32 := Nat.lt_of_lt_of_le (Nat.mod_lt _ (Nat.two_pow_pos k)) hle
  have hmask : 2 ^ k - 1 < 2 ^ 32 := Nat.lt_of_lt_of_le (Nat.sub_one_lt (Nat.two_pow_pos k).ne') hle
  apply BitVec.eq_of_toNat_eq
  rw [BitVec.toNat_and, BitVec.toNat_setWidth, BitVec.toNat_setWidth, BitVec.toNat_ofNat, Nat.mod_eq_of_lt hlow,
    Nat.mod_eq_of_lt hmask, Nat.and_two_pow_sub_one_eq_mod]

/-- A configuration register holds the written word under its mask (R22, R145). -/
theorem regValue_writeRegister_config {r : Reg} {mask : Word} (h : configMask r = some mask) (w : Word) (s : State) :
    regValue r (writeRegister (some r) w s) = w &&& mask := by
  cases r
  case inLen | decLimit | bmpW | bmpH => cases h; exact setWidth_setWidth_eq_and_mask (k := 16) (by decide) w
  case palCfg => cases h; exact setWidth_setWidth_eq_and_mask (k := 10) (by decide) w
  case bmpCfg => cases h; exact setWidth_setWidth_eq_and_mask (k := 1) (by decide) w
  all_goals cases h

/-- A configuration register reads as what it holds, whether the block is idle or busy (R146). -/
theorem readRegister_config {r : Reg} {mask : Word} (h : configMask r = some mask) (s : State) :
    readRegister (some r) s = { s with readData := regValue r s } := by
  cases r
  case inLen | decLimit | palCfg | bmpW | bmpH | bmpCfg => rfl
  all_goals cases h

/-- A write to a configuration register touches the configuration registers alone (R145). -/
theorem writeRegister_config_frame {r : Reg} {mask : Word} (h : configMask r = some mask) (w : Word) (s : State) :
    writeRegister (some r) w s =
      { s with
        inLen := (writeRegister (some r) w s).inLen, decLimit := (writeRegister (some r) w s).decLimit,
        palCfg := (writeRegister (some r) w s).palCfg, bmpW := (writeRegister (some r) w s).bmpW,
        bmpH := (writeRegister (some r) w s).bmpH, bmpCfg := (writeRegister (some r) w s).bmpCfg } := by
  cases r
  case inLen | decLimit | palCfg | bmpW | bmpH | bmpCfg => rfl
  all_goals cases h

/-- A register write leaves every configuration register but its own as it was (R145). -/
theorem writeRegister_keeps_others (r : Reg) (w : Word) (s : State) :
    (r ≠ .inLen → (writeRegister (some r) w s).inLen = s.inLen) ∧
    (r ≠ .decLimit → (writeRegister (some r) w s).decLimit = s.decLimit) ∧
    (r ≠ .palCfg → (writeRegister (some r) w s).palCfg = s.palCfg) ∧
    (r ≠ .bmpW → (writeRegister (some r) w s).bmpW = s.bmpW) ∧
    (r ≠ .bmpH → (writeRegister (some r) w s).bmpH = s.bmpH) ∧
    (r ≠ .bmpCfg → (writeRegister (some r) w s).bmpCfg = s.bmpCfg) := by
  cases r
  case cmd => simp only [writeRegister]; split <;> simp
  all_goals simp [writeRegister]

/-! ### Commands and byte writes -/

/-- A `CMD` write to a busy block is dropped (R142). -/
theorem busAccess_st_cmd_busy {s : State} (hb : statusBusy s.status = true) (w : Word) :
    busAccess (stAccess .cmd w) s = .next (dropCommand s) := by
  simp only [busAccess_st, writeRegister, hb, if_true]

/-- The `STATUS` a refused argument leaves (R250, R252). -/
theorem statusError_invalidArgument (st : BitVec 8) : statusError .invalidArgument st = 0x76 ||| (st &&& 0x08) := rfl

/-- `OVR` is set by a dropped command, whatever it was (R142). -/
theorem statusOvr_dropped (st : BitVec 8) : statusOvr (statusDropped st) = true := by
  revert st; decide

/-- A byte write touches nothing but the buffers. -/
theorem memWrite_frame (sp : Space) (a : Nat) (b : Byte) (s : State) :
    memWrite sp a b s =
      { s with
        inBuf := (memWrite sp a b s).inBuf, raster := (memWrite sp a b s).raster, pal := (memWrite sp a b s).pal } := by
  cases sp <;> rfl

/-- A byte write moves no `STATUS` bit. -/
theorem memWrite_status (sp : Space) (a : Nat) (b : Byte) (s : State) : (memWrite sp a b s).status = s.status := by
  cases sp <;> rfl

/-- What a read of any space sees after a byte write to one of them (R76, R147). -/
theorem read_spaceMem_memWrite (sp sp' : Space) (a a' : Nat) (b : Byte) (s : State) :
    (spaceMem sp' (memWrite sp a b s)).read a' = if sp' = sp ∧ a' = a then some b else (spaceMem sp' s).read a' := by
  rw [memWrite, spaceMem_memFill]
  by_cases hsp : sp' = sp
  · subst hsp
    simp only [if_true, true_and]
    exact Memory.read_write (spaceMem sp' s) a b a'
  · simp [hsp]

/-! ### The instruction that runs (R140, R255) -/

/-- The engine's step is the effect of its current instruction. -/
theorem engineStep_of_currentInstr {s : State} {i : Instr} (h : currentInstr s = .ok (some i)) :
    engineStep s = exec i s := by
  simp only [engineStep, h]

/-- Where an instruction is current, the engine is running. -/
theorem phase_ne_idle_of_currentInstr {s : State} {i : Instr} (h : currentInstr s = .ok (some i)) : s.phase ≠ .idle := by
  intro hp
  simp [currentInstr, hp] at h

/-- The current instruction does not depend on the order of moves. -/
theorem currentInstr_turns (s : State) (turns : List Turn) : currentInstr { s with turns := turns } = currentInstr s := rfl

/-- The machine's step is `exec` of the current instruction where the engine moves (log 1, log 2). -/
theorem step_of_currentInstr {s : State} {i : Instr} (h : currentInstr s = .ok (some i)) :
    (s.turns = [] → step s = exec i s) ∧
    (∀ rest, s.turns = .engine :: rest → step s = exec i { s with turns := rest }) := by
  obtain ⟨hdefault, hturn⟩ := step_of_running (phase_ne_idle_of_currentInstr h)
  exact ⟨fun ht => (hdefault ht).trans (engineStep_of_currentInstr h),
    fun rest ht => (hturn rest ht).trans (engineStep_of_currentInstr ((currentInstr_turns s rest).trans h))⟩

/-- At the end of its stream the current instruction is RLE_DECODE itself (R167). -/
theorem currentInstr_rlePairs_done {s : State} (hp : s.phase = .rlePairs) (hleft : streamLeft s = 0) :
    currentInstr s = .ok (some .rleDecode) := by
  simp only [currentInstr, hp, streamInstr, streamItem_done hleft, Except.map]

/-! ### The bound on the engine's steps (R148, R169, R194, R218) -/

/-- What one step of a running command gives: the inputs of the rest are still written, and the bound on its steps has
fallen. -/
def Shortens (s t : State) : Prop := InputsWritten t ∧ stepsLeft t < stepsLeft s

/-- An emission is at a byte inside its file (R218). -/
theorem lt_cfgFileSize_of_bmpByte {s : State} {o : Nat} (h : MachineInv s) (hp : s.phase = .bmpByte o) :
    o < cfgFileSize s := by
  have hphase := h.phase
  simp only [PhaseInv, hp] at hphase
  obtain ⟨-, hsize, -⟩ := hphase
  exact hsize

/-- A running command has a step left. -/
theorem stepsLeft_pos {s : State} (h : MachineInv s) (hp : s.phase ≠ .idle) : 0 < stepsLeft s := by
  cases hq : s.phase with
  | idle => exact absurd hq hp
  | nop | reserved | rleStart | rlePairs | palStart | palComponent | bmpStart => simp only [stepsLeft, hq]; omega
  | bmpByte o =>
    have hsize := lt_cfgFileSize_of_bmpByte h hq
    simp only [stepsLeft, hq]
    omega

/-- A step that ends the command shortens it: an idle engine reads nothing and takes no step. -/
theorem shortens_of_ends {s t : State} (hs : 0 < stepsLeft s) (ht : t.phase = .idle) : Shortens s t := by
  simp only [Shortens, InputsWritten, stepsLeft, ht]
  exact ⟨trivial, hs⟩

/-- A byte once written stays written. -/
theorem Memory.read_write_ne_none {m : Memory} {a : Nat} (h : m.read a ≠ none) (x : Nat) (b : Byte) :
    (m.write x b).read a ≠ none := by
  rw [Memory.read_write]
  split
  · exact Option.some_ne_none b
  · exact h

theorem imageWritten_of_bmpByte {s : State} {o : Nat} (hp : s.phase = .bmpByte o) (h : InputsWritten s) :
    ImageWritten s := by
  simp only [InputsWritten, hp] at h
  exact h

/-- The start step of RLE_DECODE leaves the pair steps and the end step (R161, R169). -/
theorem rleStart_shortens {s : State} (hw : InputsWritten s) (hp : s.phase = .rleStart) : Shortens s (rleStart s) := by
  rcases Nat.lt_or_ge Config.rasterCap s.cfg.decLimit.toNat with hlim | hlim
  · rw [rleStart_refused hlim]
    exact shortens_of_ends (by simp only [stepsLeft, hp]; omega) rfl
  · simp only [InputsWritten, hp] at hw
    rw [rleStart_clears hlim]
    refine ⟨fun a _ ha => hw a ha, ?_⟩
    simp [stepsLeft, streamLeft, hp]

/-- A pair step takes two bytes off the stream, or ends the command (R162, R169). -/
theorem pairStep_shortens {s : State} (hw : InputsWritten s) (hp : s.phase = .rlePairs) (hleft : 2 ≤ streamLeft s)
    (count value : Byte) : Shortens s (pairStep count value s) := by
  rcases Nat.lt_or_ge (room s) count.toNat with hroom | hroom
  · rw [pairStep_overflows hroom]
    exact shortens_of_ends (by simp only [stepsLeft, hp]; omega) rfl
  · have hnext := inPos_add_toNat hleft
    simp only [InputsWritten, hp] at hw
    rw [pairStep_fits hroom]
    simp only [Shortens, InputsWritten, stepsLeft, hp, streamLeft, hnext] at hleft ⊢
    exact ⟨fun a hlo ha => hw a (by omega) ha, by omega⟩

/-- With its stream written, the step of R162 is answered, and shortens the command. -/
theorem rleContinue_shortens {s : State} (hw : InputsWritten s) (hp : s.phase = .rlePairs) :
    ∃ t, rleContinue s = .next t ∧ Shortens s t := by
  have hpos : 0 < stepsLeft s := by simp only [stepsLeft, hp]; omega
  rcases streamItem_cases s with ⟨-, hi⟩ | ⟨-, hi⟩ | ⟨hleft, count, value, -, -, hi⟩ | ⟨hleft, a, -, hread, hlo, hhi⟩
  · exact ⟨normalEnd s, by simp only [rleContinue, hi], shortens_of_ends hpos rfl⟩
  · exact ⟨raiseError .truncatedRead s, by simp only [rleContinue, hi, execTail], shortens_of_ends hpos rfl⟩
  · exact ⟨_, by simp only [rleContinue, hi], pairStep_shortens hw hp hleft count value⟩
  · simp only [InputsWritten, hp] at hw
    unfold streamLeft at hleft
    exact absurd hread (hw a hlo (by omega))

/-- The start step of PAL_CONVERT leaves its 768 component steps (R191, R194). -/
theorem palStart_shortens {s : State} (hw : InputsWritten s) (hp : s.phase = .palStart) : Shortens s (palStart s) := by
  by_cases hd : legalDepth (srcDepth s.cfg.palCfg) = true ∧ legalDepth (dstDepth s.cfg.palCfg) = true
  · simp only [InputsWritten, hp] at hw
    rw [palStart_legal hd.1 hd.2]
    refine ⟨fun n _ hn => hw n hn, ?_⟩
    simp [stepsLeft, hp]
  · rw [palStart_refused hd]
    exact shortens_of_ends (by simp [stepsLeft, hp]) rfl

/-- A stored component leaves the rest of the source bank written, even where it is the destination too (R193). -/
theorem storeComponent_keeps_inputsWritten {s : State} (hw : InputsWritten s) {n : Fin 768}
    (hp : s.phase = .palComponent n) (v : Byte) : InputsWritten (storeComponent n.val v s) := by
  rw [storeComponent_eq]
  simp only [InputsWritten, hp] at hw ⊢
  exact fun m hlo hm => Memory.read_write_ne_none (hw m hlo hm) _ _

/-- What follows a component is the next one, or the end (R190, R194). -/
theorem palAdvance_shortens {s : State} {n : Fin 768} (hw : InputsWritten s) (hp : s.phase = .palComponent n) :
    Shortens s (palAdvance n s) := by
  by_cases hn : n.val + 1 < 768
  · simp only [InputsWritten, hp] at hw
    rw [palAdvance_more hn]
    refine ⟨fun m hlo hm => hw m (Nat.le_of_succ_le hlo) hm, ?_⟩
    simp only [stepsLeft, hp]
    omega
  · rw [palAdvance_last hn]
    exact shortens_of_ends (by simp only [stepsLeft, hp]; omega) rfl

/-- With its source bank written, a component step is answered, and shortens the command (R193, R194). -/
theorem palComponentStep_shortens {s : State} {n : Fin 768} (hw : InputsWritten s) (hp : s.phase = .palComponent n) :
    ∃ t, palComponentStep n s = .next t ∧ Shortens s t := by
  have hsource := hw
  simp only [InputsWritten, hp] at hsource
  obtain ⟨v, hv⟩ := Option.ne_none_iff_exists'.mp (hsource n.val (Nat.le_refl _) n.isLt)
  exact ⟨_, palComponentStep_ok hv,
    palAdvance_shortens (s := storeComponent n.val v s) (storeComponent_keeps_inputsWritten hw hp v) hp⟩

/-- The start step of BMP_EMIT leaves one step for each byte of the file (R211, R218). -/
theorem bmpStart_shortens {s : State} (hw : InputsWritten s) (hp : s.phase = .bmpStart) : Shortens s (bmpStart s) := by
  have hpos : 0 < stepsLeft s := by simp only [stepsLeft, hp]; omega
  have himage := imageWritten_of_bmpStart hp hw
  obtain ⟨-, hstart⟩ | ⟨-, sink, draws, hstart | hstart⟩ := bmpStart_cases s
  all_goals rw [hstart]
  · exact shortens_of_ends hpos rfl
  · refine ⟨himage, ?_⟩
    simp only [stepsLeft, hp]
    exact Nat.lt_one_add_iff.mpr (Nat.le_refl (cfgFileSize s))
  · exact shortens_of_ends hpos rfl

/-- What follows an accepted byte is the next one, or the end (R218). -/
theorem bmpAdvance_shortens {s : State} {o : Nat} (hw : InputsWritten s) (hp : s.phase = .bmpByte o)
    (ho : o < cfgFileSize s) : Shortens s (bmpAdvance o s) := by
  by_cases hmore : o + 1 < cfgFileSize s
  · have himage := imageWritten_of_bmpByte hp hw
    rw [bmpAdvance_more hmore]
    refine ⟨himage, ?_⟩
    simp only [stepsLeft, hp]
    exact Nat.sub_succ_lt_self _ _ ho
  · rw [bmpAdvance_last hmore]
    exact shortens_of_ends (by simp only [stepsLeft, hp]; omega) rfl

/-- With its image written, a byte step is answered, and shortens the command, whatever the sink says (R218). -/
theorem bmpByteStep_shortens {s : State} {o : Nat} (hw : InputsWritten s) (hp : s.phase = .bmpByte o)
    (ho : o < cfgFileSize s) : ∃ t, bmpByteStep o s = .next t ∧ Shortens s t := by
  obtain ⟨b, sink, draws, -, hstep | hstep⟩ | ⟨f, herror, -⟩ := bmpByteStep_cases o s
  · exact ⟨_, hstep,
      bmpAdvance_shortens (s := { s with sink := sink, sinkDraws := draws, out := s.out.write o b }) hw hp ho⟩
  · exact ⟨_, hstep, shortens_of_ends (by simp only [stepsLeft, hp]; omega) rfl⟩
  · obtain ⟨b, hb⟩ := fileByte_ok (imageWritten_of_bmpByte hp hw) ho
    cases hb.symm.trans herror

/-- While a command runs with its inputs written, the engine's step is answered, and shortens the command. -/
theorem engineStep_shortens {s : State} (h : MachineInv s) (hw : InputsWritten s) (hrun : s.phase ≠ .idle) :
    ∃ t, engineStep s = .next t ∧ Shortens s t := by
  have hpos := stepsLeft_pos h hrun
  cases hp : s.phase with
  | idle => exact absurd hp hrun
  | nop => exact ⟨_, engineStep_nop hp, shortens_of_ends hpos rfl⟩
  | reserved w => exact ⟨_, engineStep_reserved hp, shortens_of_ends hpos rfl⟩
  | rleStart => exact ⟨_, engineStep_rleStart hp, rleStart_shortens hw hp⟩
  | rlePairs => rw [engineStep_rlePairs hp]; exact rleContinue_shortens hw hp
  | palStart => exact ⟨_, engineStep_palStart hp, palStart_shortens hw hp⟩
  | palComponent n => rw [engineStep_palComponent hp]; exact palComponentStep_shortens hw hp
  | bmpStart => exact ⟨_, engineStep_bmpStart hp, bmpStart_shortens hw hp⟩
  | bmpByte o =>
    rw [engineStep_bmpByte hp]
    exact bmpByteStep_shortens hw hp (lt_cfgFileSize_of_bmpByte h hp)

/-- The engine alone is idle after as many steps as the bound, or more, by induction over the steps: each of them keeps the
invariant and shortens the command. -/
theorem engineRun_ends {s : State} {n : Nat} (h : MachineInv s) (hw : InputsWritten s) (hn : stepsLeft s ≤ n) :
    (engineRun n s).phase = .idle := by
  induction n generalizing s with
  | zero =>
    by_contra hrun
    exact absurd (stepsLeft_pos h hrun) (by omega)
  | succ n ih =>
    by_cases hrun : s.phase = .idle
    · rw [engineRun_idle _ hrun, hrun]
    · obtain ⟨t, hstep, hwritten, hless⟩ := engineStep_shortens h hw hrun
      rw [engineRun_succ n hrun hstep]
      exact ih (engineStep_keeps_inv h hstep) hwritten (by omega)

/-! ### The obligations -/

/-- Settles O54: `engineRun_ends` at the bound itself. -/
theorem everyCommandEndsWithinItsBound : Obligations.EveryCommandEndsWithinItsBound :=
  fun _ h hw => engineRun_ends h hw (Nat.le_refl _)

/-- Settles O10: the register holds the word under its mask, which the read returns busy or idle, and the write stays in its
own register. -/
theorem configRegisterReadsBackMasked : Obligations.ConfigRegisterReadsBackMasked := by
  intro r mask w s h
  refine ⟨_, _, busAccess_st r w s, busAccess_ld r _, ?_, writeRegister_config_frame h w s,
    writeRegister_keeps_others r w s⟩
  rw [readRegister_config h]
  exact regValue_writeRegister_config h w s

/-- Settles O17: the write moves one byte of one space and leaves `BUSY`, so the read that follows is answered with it. -/
theorem hostByteWriteIsReadBack : Obligations.HostByteWriteIsReadBack := by
  intro sp a b s hi ha
  have hread := read_spaceMem_memWrite sp
  refine ⟨_, busAccess_sb hi ha, busAccess_lb ?_ ha ?_, fun sp' a' hne => ?_, memWrite_frame sp a b s⟩
  · rw [memWrite_status, hi]
  · rw [hread, if_pos ⟨rfl, rfl⟩]
  · rw [hread, if_neg (not_and_or.mpr hne)]

/-- Settles O6: NOP is the normal end. -/
theorem nopEndsNormally : Obligations.NopEndsNormally := fun _ => rfl

/-- Settles O7: a reserved command is the error entry with the code of a refused argument. -/
theorem reservedCommandRaisesInvalidArgument : Obligations.ReservedCommandRaisesInvalidArgument := by
  intro w s
  rw [← statusError_invalidArgument]
  rfl

/-- Settles O8: the write is `acceptCommand`, and the phase of the word is that of `commandPhase_eq`. -/
theorem commandWriteAcceptedWhenIdle : Obligations.CommandWriteAcceptedWhenIdle := by
  intro w s hi
  refine ⟨_, busAccess_st_cmd_idle hi w, ?_⟩
  rw [← commandPhase_eq]
  rfl

/-- Settles O9: the write is `dropCommand`, which sets `OVR` alone. -/
theorem commandWriteDroppedWhenBusy : Obligations.CommandWriteDroppedWhenBusy :=
  fun w s hb => ⟨busAccess_st_cmd_busy hb w, statusOvr_dropped s.status⟩

/-- Settles O26: at `IN_POS` = `L` no byte of the stream is left, so the step of R162 is the normal end. -/
theorem rleDecodeEndsAtTheEndOfItsStream : Obligations.RleDecodeEndsAtTheEndOfItsStream := by
  intro s hp hend
  have hleft : streamLeft s = 0 := by rw [streamLeft, hend, Nat.sub_self]
  rw [exec_rleDecode_pairs hp, rleContinue, streamItem_done hleft]
  rfl

/-- Settles O50: in each of these phases the command is the current instruction. -/
theorem stepRunsTheRunningCommand : Obligations.StepRunsTheRunningCommand := by
  rintro s i (⟨hp, rfl⟩ | ⟨w, hp, rfl⟩ | ⟨hp, rfl⟩ | ⟨hp, hleft, rfl⟩ | ⟨hp, rfl⟩ | ⟨n, hp, rfl⟩ | ⟨hp, rfl⟩ | ⟨o, hp, rfl⟩)
  on_goal 4 => exact step_of_currentInstr (currentInstr_rlePairs_done hp hleft)
  all_goals exact step_of_currentInstr (by simp only [currentInstr, hp])

end Sys2Proof.Machine
end

section
/-! PROOFS. The statements about RLE_DECODE (41_rle.md): its single steps and what bounds them, then what two decoders of the
same stream have in common, then the run over a whole stream of pairs, and the obligations. -/

namespace Sys2Proof.Machine

/-! ### Single steps (R161, R164 to R166, R170) -/

/-- What a read sees after a fill that begins at address 0. -/
theorem Memory.read_fill_zero (m : Memory) (n : Nat) (b : Byte) (a : Nat) :
    (m.fill 0 n b).read a = if a < n then some b else m.read a := by
  simpa using Memory.read_fill m 0 n b a

/-- The `STATUS` a lone last byte leaves (R166, R252). -/
theorem statusError_truncatedRead (st : BitVec 8) : statusError .truncatedRead st = 0x36 ||| (st &&& 0x08) := rfl

/-- The `STATUS` an overflowing pair leaves (R170, R252). -/
theorem statusError_decompressionOverflow (st : BitVec 8) :
    statusError .decompressionOverflow st = 0x46 ||| (st &&& 0x08) := rfl

/-- Before decoding has begun, RLE_DECODE is its start step (R160, R161). -/
theorem exec_rleDecode_start {s : State} (h : s.phase = .rleStart) : exec .rleDecode s = .next (rleStart s) := by
  simp only [exec, execRleDecode, h]

/-- The room left, added to `CURSOR`, reaches the limit (R162, R170). -/
theorem cursor_add_room {s : State} (h : s.cursor.toNat ≤ s.cfg.decLimit.toNat) :
    BitVec.ofNat 16 (s.cursor.toNat + room s) = s.cfg.decLimit := by
  apply BitVec.eq_of_toNat_eq
  rw [cursor_add_toNat (Nat.le_refl _), room, Nat.add_sub_cancel' h]

/-- A pair of count 0 fits any room, and moves `IN_POS` alone (R165). -/
theorem pairStep_zero (value : Byte) (s : State) :
    pairStep 0 value s =
      { s with
        raster := s.raster.fill s.cursor.toNat 0 value
        runLeft := 0
        inPos := BitVec.ofNat 16 (s.inPos.toNat + 2) } := by
  have hcursor : BitVec.ofNat 16 (s.cursor.toNat + (0 : Byte).toNat) = s.cursor := by simp
  rw [pairStep_fits (Nat.zero_le _), hcursor]
  rfl

/-! ### Nothing is written at or beyond the limit (R161, R162, R168) -/

/-- A pair step fills as much of its run as the room allows, whether it fits or not (R162). -/
theorem pairStep_raster (count value : Byte) (s : State) :
    (pairStep count value s).raster = s.raster.fill s.cursor.toNat (min count.toNat (room s)) value := by
  rcases Nat.lt_or_ge (room s) count.toNat with h | h
  · rw [pairStep_overflows h, Nat.min_eq_right h.le]; rfl
  · rw [pairStep_fits h, Nat.min_eq_left h]

section BeyondLimit

variable {s : State} {a : Nat} (ha : s.cfg.decLimit.toNat ≤ a)

include ha

/-- A pair step writes below the limit only; where `CURSOR` is above it, there is no room and nothing is written (R162). -/
theorem pairStep_raster_beyond (count value : Byte) : (pairStep count value s).raster.read a = s.raster.read a := by
  rw [pairStep_raster, Memory.read_fill, if_neg]
  unfold room
  omega

/-- The start step clears below the limit only (R161). -/
theorem rleStart_raster_beyond : (rleStart s).raster.read a = s.raster.read a := by
  rcases Nat.lt_or_ge Config.rasterCap s.cfg.decLimit.toNat with hlim | hlim
  · rw [rleStart_refused hlim]; rfl
  · rw [rleStart_clears hlim]
    exact (Memory.read_fill_zero s.raster _ _ a).trans (if_neg (Nat.not_lt.mpr ha))

/-- RLE_DECODE writes below the limit only, in either of its phases (R160). -/
theorem execRleDecode_raster_beyond {t : State} (h : execRleDecode s = .next t) :
    t.raster.read a = s.raster.read a := by
  unfold execRleDecode at h
  split at h
  · obtain rfl | rfl | ⟨-, count, value, rfl⟩ := rleContinue_cases h
    · rfl
    · rfl
    · exact pairStep_raster_beyond ha count value
  · cases h
    exact rleStart_raster_beyond ha

end BeyondLimit

/-! ### The latched configuration stays (R51) -/

/-- The engine never touches the latched configuration (R51). -/
theorem engineStep_cfg {s t : State} (h : engineStep s = .next t) : t.cfg = s.cfg := by
  obtain rfl | ⟨i, hi⟩ := engineStep_cases h
  · rfl
  · obtain ⟨-, _, _, _, _, _, _, rfl⟩ | ⟨-, _, _, _, rfl⟩ | ⟨-, _, _, _, _, _, _, _, rfl⟩ | ⟨_, _, rfl⟩ := exec_cases hi
    all_goals rfl

theorem engineRun_cfg (n : Nat) (s : State) : (engineRun n s).cfg = s.cfg := by
  induction n generalizing s with
  | zero => rfl
  | succ n ih =>
    unfold engineRun
    split
    · rfl
    · split
      · next hstep => rw [ih, engineStep_cfg hstep]
      · rfl
      · rfl

theorem rleStart_cfg (s : State) : (rleStart s).cfg = s.cfg := by
  obtain ⟨_, _, _, _, _, _, h⟩ := rleStart_frame s
  rw [h]

/-! ### The declared input alone decides (R103, R168, R173) -/

/-- A read answers by the byte that stands there, and by nothing else of the state. -/
theorem memRead_congr {sp : Space} {a : Nat} {s s' : State} (h : (spaceMem sp s).read a = (spaceMem sp s').read a) :
    memRead sp a s = memRead sp a s' := by
  simp only [memRead, h]

/-- The item at `IN_POS` depends on the position, the declared length and the bytes below it (R103, R162). -/
theorem streamItem_congr {s s' : State} (hlen : s.cfg.inLen = s'.cfg.inLen) (hpos : s.inPos = s'.inPos)
    (hin : ∀ a, a < s.cfg.inLen.toNat → s.inBuf.read a = s'.inBuf.read a) : streamItem s = streamItem s' := by
  have hleft : streamLeft s = streamLeft s' := by rw [streamLeft, streamLeft, hlen, hpos]
  rcases Nat.lt_or_ge (streamLeft s) 2 with hshort | hpair
  · obtain h | h : streamLeft s = 0 ∨ streamLeft s = 1 := by omega
    · rw [streamItem_done h, streamItem_done (hleft ▸ h)]
    · rw [streamItem_lone h, streamItem_lone (hleft ▸ h)]
  · have hread : ∀ i, i < 2 → memRead .input (s.inPos.toNat + i) s = memRead .input (s.inPos.toNat + i) s' :=
      fun i hi => memRead_congr (hin _ (by unfold streamLeft at hpair; omega))
    have hcount := hread 0 (by decide)
    rw [Nat.add_zero] at hcount
    simp only [streamItem, ← hleft, ← hpos, hcount, hread 1 (by decide)]

/-- Two decoders of one stream: the length, the limit and the declared bytes are the same, and so is what decoding has made
of them so far (R173). The rest of their states is free. -/
structure DecodesAlike (s s' : State) : Prop where
  inLen : s.cfg.inLen = s'.cfg.inLen
  decLimit : s.cfg.decLimit = s'.cfg.decLimit
  input : ∀ a, a < s.cfg.inLen.toNat → s.inBuf.read a = s'.inBuf.read a
  status : s.status = s'.status
  phase : s.phase = s'.phase
  inPos : s.inPos = s'.inPos
  cursor : s.cursor = s'.cursor
  raster : s.cfg.decLimit.toNat ≤ Config.rasterCap →
    ∀ a, a < s.cfg.decLimit.toNat → s.raster.read a = s'.raster.read a

/-- The two ends of a command write `STATUS` from the old `STATUS`, so they keep two decoders alike (R141, R252). -/
theorem DecodesAlike.ends {s s' : State} (h : DecodesAlike s s') (f : BitVec 8 → BitVec 8) :
    DecodesAlike { s with status := f s.status, phase := .idle } { s' with status := f s'.status, phase := .idle } where
  inLen := h.inLen
  decLimit := h.decLimit
  input := h.input
  status := congrArg f h.status
  phase := rfl
  inPos := h.inPos
  cursor := h.cursor
  raster := h.raster

/-- A run of the same count and value lands at the same place of both destinations (R162). -/
theorem DecodesAlike.writeRun {s s' : State} (h : DecodesAlike s s') (count value : Byte) :
    DecodesAlike (writeRun count value s) (writeRun count value s') where
  inLen := h.inLen
  decLimit := h.decLimit
  input := h.input
  status := h.status
  phase := h.phase
  inPos := h.inPos
  cursor := by simp only [Machine.writeRun, room, h.cursor, h.decLimit]
  raster := fun hlim a ha => by
    have hr := h.raster hlim a ha
    simp only [Machine.writeRun, memFill, room, Memory.read_fill, h.cursor, h.decLimit, hr]

/-- The same pair keeps two decoders alike, whether it fits or overflows (R162). -/
theorem DecodesAlike.pairStep {s s' : State} (h : DecodesAlike s s') (count value : Byte) :
    DecodesAlike (pairStep count value s) (pairStep count value s') := by
  have hrun := h.writeRun count value
  have hroom : room s = room s' := by rw [room, room, h.cursor, h.decLimit]
  simp only [Machine.pairStep, ← hroom]
  split_ifs
  · exact hrun.ends (statusError .decompressionOverflow)
  · exact { hrun with inPos := by simp only [h.inPos] }

/-- The start steps of two decoders with the same `STATUS`, length, limit and declared bytes leave them alike, whatever stood
in their progress registers and destinations (R161). -/
theorem rleStart_alike {s s' : State} (hstatus : s.status = s'.status) (hlen : s.cfg.inLen = s'.cfg.inLen)
    (hdec : s.cfg.decLimit = s'.cfg.decLimit)
    (hin : ∀ a, a < s.cfg.inLen.toNat → s.inBuf.read a = s'.inBuf.read a) :
    DecodesAlike (rleStart s) (rleStart s') := by
  rcases Nat.lt_or_ge Config.rasterCap s.cfg.decLimit.toNat with hlim | hlim
  · rw [rleStart_refused hlim, rleStart_refused (hdec ▸ hlim)]
    exact ⟨hlen, hdec, hin, congrArg (statusError .invalidArgument) hstatus, rfl, rfl, rfl,
      fun hle => absurd hle (Nat.not_le.mpr hlim)⟩
  · rw [rleStart_clears hlim, rleStart_clears (hdec ▸ hlim)]
    refine ⟨hlen, hdec, hin, hstatus, rfl, rfl, rfl, fun _ a ha => ?_⟩
    have ha' : a < s'.cfg.decLimit.toNat := hdec ▸ ha
    exact (Memory.read_fill_zero s.raster _ _ a).trans
      ((if_pos ha).trans ((Memory.read_fill_zero s'.raster _ _ a).trans (if_pos ha')).symm)

/-- A pair step goes on with the pairs or ends the command (R162). -/
theorem pairStep_phase {s : State} (hp : s.phase = .rlePairs) (count value : Byte) :
    (pairStep count value s).phase = .rlePairs ∨ (pairStep count value s).phase = .idle := by
  rcases Nat.lt_or_ge (room s) count.toNat with h | h
  · rw [pairStep_overflows h]; exact .inr rfl
  · rw [pairStep_fits h]; exact .inl hp

/-- The start step goes on with the pairs or ends the command (R161). -/
theorem rleStart_phase (s : State) : (rleStart s).phase = .rlePairs ∨ (rleStart s).phase = .idle := by
  rcases Nat.lt_or_ge Config.rasterCap s.cfg.decLimit.toNat with h | h
  · rw [rleStart_refused h]; exact .inr rfl
  · rw [rleStart_clears h]; exact .inl rfl

/-- One step of two decoders that are alike: both stop with the same fault, or both are answered, are alike again, and go
on with the pairs or are idle (R162). -/
theorem DecodesAlike.engineStep {s s' : State} (h : DecodesAlike s s') (hp : s.phase = .rlePairs) :
    (∃ f, engineStep s = .fault f ∧ engineStep s' = .fault f) ∨
    (∃ t t', engineStep s = .next t ∧ engineStep s' = .next t' ∧ DecodesAlike t t' ∧
      (t.phase = .rlePairs ∨ t.phase = .idle)) := by
  have hitem := streamItem_congr h.inLen h.inPos h.input
  rw [engineStep_rlePairs hp, engineStep_rlePairs (h.phase ▸ hp), rleContinue, rleContinue, ← hitem]
  rcases streamItem s with f | (_ | _ | ⟨count, value⟩)
  · exact .inl ⟨f, rfl, rfl⟩
  · exact .inr ⟨_, _, rfl, rfl, h.ends statusNormalEnd, .inr rfl⟩
  · exact .inr ⟨_, _, rfl, rfl, h.ends (statusError .truncatedRead), .inr rfl⟩
  · exact .inr ⟨_, _, rfl, rfl, h.pairStep count value, pairStep_phase hp count value⟩

/-- Two decoders that are alike stay alike over any number of engine steps, by induction over the steps (R173). -/
theorem DecodesAlike.engineRun {s s' : State} (h : DecodesAlike s s') (hp : s.phase = .rlePairs ∨ s.phase = .idle)
    (n : Nat) : DecodesAlike (engineRun n s) (engineRun n s') := by
  induction n generalizing s s' with
  | zero => exact h
  | succ n ih =>
    rcases hp with hp | hidle
    · rcases h.engineStep hp with ⟨f, hf, hf'⟩ | ⟨t, t', ht, ht', halike, hpt⟩
      · rwa [engineRun_fault _ hf, engineRun_fault _ hf']
      · rw [engineRun_succ n (by simp [hp]) ht, engineRun_succ n (by simp [← h.phase, hp]) ht']
        exact ih halike hpt
    · rwa [engineRun_idle _ hidle, engineRun_idle _ (h.phase ▸ hidle)]

/-! ### Streams of pairs and the bytes they spell (R100, R174) -/

/-- A stream holds one sequence of bytes and then another where both stand one behind the other. -/
theorem holdsAt_append {m : Memory} {lo : Nat} {xs ys : List Byte} (h : HoldsAt m lo (xs ++ ys)) :
    HoldsAt m lo xs ∧ HoldsAt m (lo + xs.length) ys := by
  refine ⟨fun i hi => ?_, fun i hi => ?_⟩
  · rw [h i (by rw [List.length_append]; omega), List.getElem?_append_left hi]
  · rw [Nat.add_assoc, h (xs.length + i) (by rw [List.length_append]; omega),
      List.getElem?_append_right (Nat.le_add_right _ _), Nat.add_sub_cancel_left]

theorem pairBytes_concat (pairs : List (Byte × Byte)) (count value : Byte) :
    pairBytes (pairs ++ [(count, value)]) = pairBytes pairs ++ [count, value] := by
  simp [pairBytes]

theorem pairBytes_length (pairs : List (Byte × Byte)) : (pairBytes pairs).length = 2 * pairs.length := by
  simp [pairBytes, Nat.mul_comm]

theorem spelled_concat (pairs : List (Byte × Byte)) (count value : Byte) :
    spelled (pairs ++ [(count, value)]) = spelled pairs ++ List.replicate count.toNat value := by
  simp [spelled]

/-- A stream with one pair more holds the earlier pairs, and the two bytes of the last behind them (R100). -/
theorem holdsAt_pairBytes_concat {m : Memory} {pairs : List (Byte × Byte)} {count value : Byte}
    (h : HoldsAt m 0 (pairBytes (pairs ++ [(count, value)]))) :
    HoldsAt m 0 (pairBytes pairs) ∧ m.read (2 * pairs.length) = some count ∧
      m.read (2 * pairs.length + 1) = some value := by
  rw [pairBytes_concat] at h
  obtain ⟨hpairs, hlast⟩ := holdsAt_append h
  rw [pairBytes_length, Nat.zero_add] at hlast
  exact ⟨hpairs, hlast 0 (by simp), hlast 1 (by simp)⟩

/-- The byte at an offset of a sequence with a run behind it: the run's value inside the run. -/
theorem getD_append_replicate (bytes : List Byte) (n : Nat) (value d : Byte) (a : Nat) :
    (bytes ++ List.replicate n value).getD a d =
      if bytes.length ≤ a ∧ a < bytes.length + n then value else bytes.getD a d := by
  rcases Nat.lt_or_ge a bytes.length with ha | ha
  · rw [List.getD_append _ _ _ _ ha, if_neg (by omega)]
  · rw [List.getD_append_right _ _ _ _ ha]
    by_cases hn : a < bytes.length + n
    · rw [if_pos ⟨ha, hn⟩, List.getD_replicate _ (by omega)]
    · rw [if_neg (by omega), List.getD_eq_default _ _ ha,
        List.getD_eq_default _ _ (by rw [List.length_replicate]; omega)]

/-- The raster of a decode that `s` started, once its runs have spelled some bytes: below the limit they stand at their
offsets with 0x00 beyond them, and the rest is as it was (R161, R172). -/
def HoldsSpelled (s : State) (bytes : List Byte) (m : Memory) : Prop :=
  ∀ a, m.read a = if a < s.cfg.decLimit.toNat then some (bytes.getD a 0x00) else s.raster.read a

/-- The cleared destination spells nothing yet (R161). -/
theorem holdsSpelled_nil (s : State) : HoldsSpelled s [] (s.raster.fill 0 s.cfg.decLimit.toNat 0x00) :=
  fun a => Memory.read_fill_zero s.raster _ _ a

/-- As much of a run as fits, written behind the bytes spelled so far, spells the run too (R162, R170). -/
theorem HoldsSpelled.fill {s : State} {bytes : List Byte} {m : Memory} (h : HoldsSpelled s bytes m) (n : Nat)
    (value : Byte) :
    HoldsSpelled s (bytes ++ List.replicate n value)
      (m.fill bytes.length (min n (s.cfg.decLimit.toNat - bytes.length)) value) := by
  intro a
  rw [Memory.read_fill, h a, getD_append_replicate]
  by_cases ha : a < s.cfg.decLimit.toNat
  · by_cases hrun : bytes.length ≤ a ∧ a < bytes.length + n
    · rw [if_pos (by omega), if_pos ha, if_pos hrun]
    · rw [if_neg (by omega), if_neg hrun]
  · rw [if_neg (by omega), if_neg ha, if_neg ha]

/-! ### The run over a stream of pairs (R162 to R167, R172) -/

/-- The state of a decode that `s` started, once it has run some pairs that all fitted, with the raster as given. -/
def decodedPairs (s : State) (pairs : List (Byte × Byte)) (raster : Memory) : State :=
  { s with
    inPos := BitVec.ofNat 16 (2 * pairs.length), cursor := BitVec.ofNat 16 (spelled pairs).length,
    raster := raster, runLeft := 0, phase := .rlePairs }

/-- The start step at a legal limit leaves no pair run and the destination cleared (R161). -/
theorem engineStep_rleStart_legal {s : State} (hp : s.phase = .rleStart)
    (hlim : s.cfg.decLimit.toNat ≤ Config.rasterCap) :
    engineStep s = .next (decodedPairs s [] (s.raster.fill 0 s.cfg.decLimit.toNat 0x00)) := by
  rw [engineStep_rleStart hp, rleStart_clears hlim]
  rfl

/-- `IN_POS` counts the bytes of the pairs run, without wrapping (R33). -/
theorem decodedPairs_inPos {s : State} {pairs : List (Byte × Byte)} (h : 2 * pairs.length ≤ s.cfg.inLen.toNat)
    (raster : Memory) : (decodedPairs s pairs raster).inPos.toNat = 2 * pairs.length :=
  (BitVec.toNat_ofNat _ 16).trans (Nat.mod_eq_of_lt (Nat.lt_of_le_of_lt h s.cfg.inLen.isLt))

/-- `CURSOR` counts the bytes spelled, without wrapping (R34). -/
theorem decodedPairs_cursor {s : State} {pairs : List (Byte × Byte)}
    (h : (spelled pairs).length ≤ s.cfg.decLimit.toNat) (raster : Memory) :
    (decodedPairs s pairs raster).cursor.toNat = (spelled pairs).length :=
  (BitVec.toNat_ofNat _ 16).trans (Nat.mod_eq_of_lt (Nat.lt_of_le_of_lt h s.cfg.decLimit.isLt))

theorem streamLeft_decodedPairs {s : State} {pairs : List (Byte × Byte)} (h : 2 * pairs.length ≤ s.cfg.inLen.toNat)
    (raster : Memory) : streamLeft (decodedPairs s pairs raster) = s.cfg.inLen.toNat - 2 * pairs.length := by
  rw [streamLeft, decodedPairs_inPos h]
  rfl

theorem room_decodedPairs {s : State} {pairs : List (Byte × Byte)}
    (h : (spelled pairs).length ≤ s.cfg.decLimit.toNat) (raster : Memory) :
    room (decodedPairs s pairs raster) = s.cfg.decLimit.toNat - (spelled pairs).length := by
  rw [room, decodedPairs_cursor h]
  rfl

/-- The next pair of the stream is the one the next step runs (R162). -/
theorem engineStep_decodedPairs {s : State} {pairs : List (Byte × Byte)} {count value : Byte}
    (hlen : 2 * pairs.length + 2 ≤ s.cfg.inLen.toNat)
    (hin : HoldsAt s.inBuf 0 (pairBytes (pairs ++ [(count, value)]))) (raster : Memory) :
    engineStep (decodedPairs s pairs raster) = .next (pairStep count value (decodedPairs s pairs raster)) := by
  obtain ⟨-, hc, hv⟩ := holdsAt_pairBytes_concat hin
  have hpos := decodedPairs_inPos (s := s) (pairs := pairs) (by omega) raster
  have hleft := streamLeft_decodedPairs (s := s) (pairs := pairs) (by omega) raster
  rw [← hpos] at hc hv
  rw [engineStep_pair (s := decodedPairs s pairs raster) rfl (by omega) hc hv, exec_decodePair]

/-- A next pair that fits adds its bytes to the ones spelled (R164, R165). -/
theorem pairStep_decodedPairs_fits {s : State} {pairs : List (Byte × Byte)} {count value : Byte}
    (hlen : 2 * pairs.length ≤ s.cfg.inLen.toNat)
    (hfits : (spelled (pairs ++ [(count, value)])).length ≤ s.cfg.decLimit.toNat) (raster : Memory) :
    pairStep count value (decodedPairs s pairs raster) =
      decodedPairs s (pairs ++ [(count, value)]) (raster.fill (spelled pairs).length count.toNat value) := by
  have htotal : (spelled (pairs ++ [(count, value)])).length = (spelled pairs).length + count.toNat := by
    rw [spelled_concat, List.length_append, List.length_replicate]
  have hroom := room_decodedPairs (s := s) (pairs := pairs) (by omega) raster
  have hcursor := decodedPairs_cursor (s := s) (pairs := pairs) (by omega) raster
  rw [pairStep_fits (s := decodedPairs s pairs raster) (by omega), hcursor, decodedPairs_inPos hlen, ← htotal]
  simp [decodedPairs, Nat.mul_add]

/-- A next pair that overflows fills the room left and ends the command at its own offset (R170). -/
theorem pairStep_decodedPairs_overflows {s : State} {pairs : List (Byte × Byte)} {count : Byte}
    (hfits : (spelled pairs).length ≤ s.cfg.decLimit.toNat)
    (hover : s.cfg.decLimit.toNat < (spelled pairs).length + count.toNat) (value : Byte) (raster : Memory) :
    ∃ runLeft, pairStep count value (decodedPairs s pairs raster) =
      raiseError .decompressionOverflow
        { decodedPairs s pairs
            (raster.fill (spelled pairs).length (min count.toNat (s.cfg.decLimit.toNat - (spelled pairs).length)) value)
          with cursor := s.cfg.decLimit, runLeft := runLeft } := by
  have hroom := room_decodedPairs hfits raster
  have hcursor := decodedPairs_cursor hfits raster
  have hend := cursor_add_room (s := decodedPairs s pairs raster) (hcursor.trans_le hfits)
  refine ⟨BitVec.ofNat 8 (count.toNat - (s.cfg.decLimit.toNat - (spelled pairs).length)), ?_⟩
  rw [pairStep_overflows (s := decodedPairs s pairs raster) (by omega), hend, hcursor, hroom,
    Nat.min_eq_right (by omega)]
  rfl

/-- After the start step and one step for each of some pairs that fit, the destination spells their runs and decoding is at
the byte behind them: by induction over the pairs, the last one last. -/
theorem engineRun_decodedPairs {s : State} {pairs : List (Byte × Byte)} (hp : s.phase = .rleStart)
    (hlim : s.cfg.decLimit.toNat ≤ Config.rasterCap) (hlen : 2 * pairs.length ≤ s.cfg.inLen.toNat)
    (hin : HoldsAt s.inBuf 0 (pairBytes pairs)) (hfits : (spelled pairs).length ≤ s.cfg.decLimit.toNat) :
    ∃ raster, HoldsSpelled s (spelled pairs) raster ∧
      ∀ n, engineRun (pairs.length + 1 + n) s = engineRun n (decodedPairs s pairs raster) := by
  induction pairs using List.reverseRecOn with
  | nil =>
    refine ⟨_, holdsSpelled_nil s, fun n => ?_⟩
    rw [List.length_nil, Nat.zero_add, Nat.add_comm]
    exact engineRun_succ n (by simp [hp]) (engineStep_rleStart_legal hp hlim)
  | append_singleton pairs p ih =>
    obtain ⟨count, value⟩ := p
    have htotal := congrArg List.length (spelled_concat pairs count value)
    rw [List.length_append, List.length_replicate] at htotal
    rw [List.length_append, List.length_singleton] at hlen ⊢
    obtain ⟨raster, hspelled, hrun⟩ := ih (by omega) (holdsAt_pairBytes_concat hin).1 (by omega)
    have hstep := engineStep_decodedPairs (by omega) hin raster
    rw [pairStep_decodedPairs_fits (by omega) hfits] at hstep
    have hnext := hspelled.fill count.toNat value
    rw [← spelled_concat, Nat.min_eq_left (by omega)] at hnext
    refine ⟨_, hnext, fun n => ?_⟩
    calc engineRun (pairs.length + 1 + 1 + n) s = engineRun (n + 1) (decodedPairs s pairs raster) := by
          rw [← hrun]; congr 1; omega
      _ = _ := engineRun_succ n Phase.noConfusion hstep

/-- Behind its pairs the decoder ends normally, or with `TruncatedRead` where one byte is left (R166, R167). -/
theorem engineStep_decodedPairs_end {s : State} {pairs : List (Byte × Byte)} {odd : Nat} (hodd : odd ≤ 1)
    (hlen : s.cfg.inLen.toNat = 2 * pairs.length + odd) (raster : Memory) :
    engineStep (decodedPairs s pairs raster) =
      .next { decodedPairs s pairs raster with
        status := if odd = 0 then 0x02 ||| (s.status &&& 0x08) else 0x36 ||| (s.status &&& 0x08), phase := .idle } := by
  have hleft := streamLeft_decodedPairs (s := s) (pairs := pairs) (by omega) raster
  rw [engineStep_rlePairs rfl, rleContinue]
  obtain rfl | rfl : odd = 0 ∨ odd = 1 := by omega
  · rw [streamItem_done (by omega)]
    rfl
  · rw [streamItem_lone (by omega), if_neg Nat.one_ne_zero, ← statusError_truncatedRead]
    rfl

/-! ### The obligations -/

/-- Settles O29: the run over all the pairs, then the step at the end of the stream. -/
theorem rleDecodeSpellsItsRuns : Obligations.RleDecodeSpellsItsRuns := by
  intro s pairs odd hp hodd hlim hlen hin hfits
  have hread : 2 * pairs.length ≤ s.cfg.inLen.toNat := by omega
  obtain ⟨raster, hspelled, hrun⟩ := engineRun_decodedPairs hp hlim hread hin hfits
  have hend := engineRun_succ 0 Phase.noConfusion (engineStep_decodedPairs_end hodd hlen raster)
  exact ⟨_, (hrun 1).trans hend, rfl, decodedPairs_inPos hread raster, decodedPairs_cursor hfits raster, hspelled⟩

/-- Settles O30: the run over the earlier pairs, then the step of the pair that overflows. -/
theorem rleDecodeStopsAtTheOverflowingPair : Obligations.RleDecodeStopsAtTheOverflowingPair := by
  intro s pairs count value hp hlim hlen hin hfits hover
  obtain ⟨hpairs, -⟩ := holdsAt_pairBytes_concat hin
  have hread : 2 * pairs.length ≤ s.cfg.inLen.toNat := by omega
  obtain ⟨raster, hspelled, hrun⟩ := engineRun_decodedPairs hp hlim hread hpairs hfits
  obtain ⟨runLeft, hpair⟩ := pairStep_decodedPairs_overflows hfits hover value raster
  have hstep := engineStep_decodedPairs hlen hin raster
  rw [hpair] at hstep
  have hend := engineRun_succ 0 Phase.noConfusion hstep
  rw [← statusError_decompressionOverflow]
  exact ⟨_, (hrun 1).trans hend, rfl, decodedPairs_inPos hread raster, hspelled.fill count.toNat value⟩

/-- Settles O31: the start steps leave the two decoders alike, and every step after them keeps them so. -/
theorem rleDecodeDependsOnItsInputAlone : Obligations.RleDecodeDependsOnItsInputAlone := by
  intro s s' n hp hp' hstatus hlen hdec hin hn
  obtain ⟨n, rfl⟩ := Nat.exists_eq_add_one_of_ne_zero (Nat.one_le_iff_ne_zero.mp hn)
  have hstart := rleStart_alike hstatus hlen hdec hin
  have halike := hstart.engineRun (rleStart_phase s) n
  have hcfg : (engineRun n (rleStart s)).cfg = s.cfg := (engineRun_cfg n _).trans (rleStart_cfg s)
  rw [engineRun_succ n (by simp [hp]) (engineStep_rleStart hp),
    engineRun_succ n (by simp [hp']) (engineStep_rleStart hp')]
  have hraster := halike.raster
  rw [hcfg] at hraster
  exact ⟨halike.status, halike.phase, halike.inPos, halike.cursor, hraster⟩

/-- Settles O21: the start step is its refusal above the limit of the raster, and otherwise the clear. -/
theorem rleStartChecksItsLimitAndClears : Obligations.RleStartChecksItsLimitAndClears := by
  intro s hp
  refine ⟨fun hlim => ?_, fun hlim => ?_⟩
  · rw [exec_rleDecode_start hp, rleStart_clears hlim]
    exact ⟨_, rfl, rfl, Memory.read_fill_zero s.raster _ _⟩
  · rw [exec_rleDecode_start hp, rleStart_refused hlim, ← statusError_invalidArgument]
    exact ⟨_, rfl, rfl⟩

/-- Settles O22: the count is within the room left, so the pair step writes all of its run. -/
theorem runThatFitsWritesItsCopies : Obligations.RunThatFitsWritesItsCopies := by
  intro count value s hleft hfits
  have hroom : count.toNat ≤ room s := by unfold room; omega
  exact ⟨_, congrArg Host.Outcome.next (pairStep_fits hroom), rfl, cursor_add_toNat hroom, inPos_add_toNat hleft,
    Memory.read_fill s.raster _ _ _⟩

/-- Settles O23: the count is above the room left, and the room ends at the limit. -/
theorem runThatOverflowsFillsToTheLimit : Obligations.RunThatOverflowsFillsToTheLimit := by
  intro count value s hcursor hover
  have hroom : room s < count.toNat := by unfold room; omega
  have hlimit : s.cursor.toNat + room s = s.cfg.decLimit.toNat := Nat.add_sub_cancel' hcursor
  refine ⟨_, congrArg Host.Outcome.next (pairStep_overflows hroom), ?_, fun a => ?_⟩
  · rw [cursor_add_room hcursor, ← statusError_decompressionOverflow]
    rfl
  · rw [← hlimit]
    exact Memory.read_fill s.raster _ _ _ a

/-- Settles O24: a fill of no byte leaves every read as it was. -/
theorem runOfCountZeroWritesNothing : Obligations.RunOfCountZeroWritesNothing := by
  intro value s hleft
  refine ⟨_, congrArg Host.Outcome.next (pairStep_zero value s), rfl, inPos_add_toNat hleft, fun a => ?_⟩
  exact (Memory.read_fill s.raster _ _ _ a).trans (if_neg (by omega))

/-- Settles O27: the buffer is read by the decoder's phase alone, and there the item at `IN_POS` is the same. -/
theorem decoderIgnoresInputBeyondItsLength : Obligations.DecoderIgnoresInputBeyondItsLength := by
  intro s m hin
  have hitem : streamItem { s with inBuf := m } = streamItem s := streamItem_congr rfl rfl hin
  simp only [currentInstr, streamInstr, hitem]

/-- Settles O28: only the decoder's instructions write the raster, and each of them below the limit. -/
theorem decoderWritesOnlyBelowItsLimit : Obligations.DecoderWritesOnlyBelowItsLimit := by
  intro i s t h a ha
  cases i with
  | nop | reservedCmd | tail => cases h; rfl
  | palConvert => obtain ⟨_, _, _, rfl⟩ := execPalConvert_frame h; rfl
  | bmpEmit => obtain ⟨_, _, _, _, _, _, _, rfl⟩ := execBmpEmit_frame h; rfl
  | rleDecode => exact execRleDecode_raster_beyond ha h
  | run0 value => cases h; exact pairStep_raster_beyond ha 0 value
  | run count value => cases h; exact pairStep_raster_beyond ha count value

/-- Settles O25: TAIL is the error entry with the code of a truncated read. -/
theorem tailRaisesTruncatedRead : Obligations.TailRaisesTruncatedRead := by
  intro s
  rw [← statusError_truncatedRead]
  rfl

end Sys2Proof.Machine
end

section
/-! PROOFS. The statements about PAL_CONVERT (42_palette.md): its single steps, the arithmetic of one component, then the run over
a whole bank, and the obligations. -/

namespace Sys2Proof.Machine

/-! ### Single steps (R190, R191, R193) -/

/-- Before any component, PAL_CONVERT is its start step (R190, R191). -/
theorem exec_palConvert_start {s : State} (h : s.phase = .palStart) : exec .palConvert s = .next (palStart s) := by
  simp only [exec, execPalConvert, h]

/-- Where a component is next, PAL_CONVERT is the step of that component (R190, R193). -/
theorem exec_palConvert_component {s : State} {n : Fin 768} (h : s.phase = .palComponent n) :
    exec .palConvert s = palComponentStep n s := by
  simp only [exec, execPalConvert, h]

theorem legalDepth_iff (d : BitVec 4) : legalDepth d = true ↔ d ∈ [4, 6, 8] := by
  simp [legalDepth, or_assoc]

/-- What follows a component moves the phase and `STATUS` alone (R190). -/
theorem palAdvance_frame (n : Fin 768) (s : State) :
    palAdvance n s = { s with phase := (palAdvance n s).phase, status := (palAdvance n s).status } := by
  by_cases hn : n.val + 1 < 768
  · rw [palAdvance_more hn]
  · rw [palAdvance_last hn]; rfl

theorem palAdvance_pal (n : Fin 768) (s : State) : (palAdvance n s).pal = s.pal := by
  rw [palAdvance_frame]

/-! ### The arithmetic of one component (R192, R193, R196) -/

theorem depthMax_pos {d : BitVec 4} (h : legalDepth d = true) : 0 < depthMax d := by
  revert d; decide

theorem depthMax_lt {d : BitVec 4} (h : legalDepth d = true) : depthMax d < 2 ^ 8 := by
  revert d; decide

/-- Up to the source's maximum the quotient stays within the destination's maximum (R196). -/
theorem scaled_le {v a : Nat} (h : v ≤ a) (b : Nat) : v * b / a ≤ b :=
  Nat.div_le_of_le_mul (Nat.mul_le_mul_right b h)

/-- So the reduction mod 256 takes nothing off it (R193, R196). -/
theorem convertComponent_toNat {ds dd : BitVec 4} {v : Byte} (hdd : legalDepth dd = true)
    (hv : v.toNat ≤ depthMax ds) :
    (convertComponent ds dd v).toNat = v.toNat * depthMax dd / depthMax ds :=
  (BitVec.toNat_ofNat _ 8).trans (Nat.mod_eq_of_lt ((scaled_le hv _).trans_lt (depthMax_lt hdd)))

/-- A common factor of the two maxima cancels (R198). -/
theorem convertComponent_reduced {ds dd : BitVec 4} {v : Byte} (p q k : Nat) (hdd : legalDepth dd = true)
    (hv : v.toNat ≤ depthMax ds) (hp : depthMax dd = p * k) (hq : depthMax ds = q * k) (hk : 0 < k) :
    (convertComponent ds dd v).toNat = v.toNat * p / q := by
  rw [convertComponent_toNat hdd hv, hp, hq, ← Nat.mul_assoc, Nat.mul_div_mul_right _ _ hk]

theorem convertComponent_zero (ds dd : BitVec 4) : convertComponent ds dd 0 = 0 := by
  simp [convertComponent]

/-- The source's maximum becomes the destination's (R199). -/
theorem convertComponent_max {ds dd : BitVec 4} (hds : legalDepth ds = true) (hdd : legalDepth dd = true) :
    (convertComponent ds dd (BitVec.ofNat 8 (depthMax ds))).toNat = depthMax dd := by
  have hmax : (BitVec.ofNat 8 (depthMax ds)).toNat = depthMax ds :=
    (BitVec.toNat_ofNat _ 8).trans (Nat.mod_eq_of_lt (depthMax_lt hds))
  rw [convertComponent_toNat hdd hmax.le, hmax, Nat.mul_div_cancel_left _ (depthMax_pos hds)]

/-- At equal depths every byte is copied, one above the maximum too (R197). -/
theorem convertComponent_self {d : BitVec 4} (h : legalDepth d = true) (v : Byte) : convertComponent d d v = v := by
  rw [convertComponent, Nat.mul_div_cancel _ (depthMax_pos h), BitVec.ofNat_toNat, BitVec.setWidth_eq]

/-! ### The run over a whole bank (R190, R193 to R195) -/

/-- The palette once the first `k` components of the command that `s` started are stored: they are the rescaled components of
the source bank as `s` holds it, and every other byte is as `s` holds it (R193, R195). -/
def HoldsRescaled (s : State) (k : Nat) (pal : Memory) : Prop :=
  (∀ n, n < k → pal.read (bankAddr (dstBank s.cfg.palCfg) n) =
    (s.pal.read (bankAddr (srcBank s.cfg.palCfg) n)).map
      (convertComponent (srcDepth s.cfg.palCfg) (dstDepth s.cfg.palCfg))) ∧
  (∀ a, (∀ n, n < k → a ≠ bankAddr (dstBank s.cfg.palCfg) n) → pal.read a = s.pal.read a)

theorem holdsRescaled_zero (s : State) : HoldsRescaled s 0 s.pal := ⟨by omega, fun _ _ => rfl⟩

/-- A component not yet converted still stands in the source bank, even where the banks are the same one (R195). -/
theorem HoldsRescaled.read_source {s : State} {k : Nat} {pal : Memory} (h : HoldsRescaled s k pal) (hk : k < 768) :
    pal.read (bankAddr (srcBank s.cfg.palCfg) k) = s.pal.read (bankAddr (srcBank s.cfg.palCfg) k) :=
  h.2 _ fun n hn heq => absurd ((bankAddr_inj hk (by omega)).mp heq).2 (by omega)

/-- The next component, rescaled and stored at its place, makes the converted part one longer (R193). -/
theorem HoldsRescaled.write {s : State} {k : Nat} {pal : Memory} {v : Byte} (h : HoldsRescaled s k pal) (hk : k < 768)
    (hv : s.pal.read (bankAddr (srcBank s.cfg.palCfg) k) = some v) :
    HoldsRescaled s (k + 1) (pal.write (bankAddr (dstBank s.cfg.palCfg) k)
      (convertComponent (srcDepth s.cfg.palCfg) (dstDepth s.cfg.palCfg) v)) := by
  obtain ⟨hdone, hrest⟩ := h
  refine ⟨fun n hn => ?_, fun a ha => ?_⟩
  · rw [Memory.read_write]
    by_cases hnk : n = k
    · subst hnk
      rw [if_pos rfl, hv, Option.map_some]
    · rw [if_neg fun heq => hnk ((bankAddr_inj (by omega) hk).mp heq).2]
      exact hdone n (by omega)
  · rw [Memory.read_write, if_neg (ha k (Nat.lt_succ_self k))]
    exact hrest a fun n hn => ha n (Nat.lt_succ_of_lt hn)

/-- The state of a PAL_CONVERT that `s` started, before the step of component `n`, with the palette as given. -/
def rescaling (s : State) (pal : Memory) (n : Fin 768) : State := { s with pal := pal, phase := .palComponent n }

/-- The step of a component stores it and goes on (R193). -/
theorem engineStep_rescaling {s : State} {n : Fin 768} {pal : Memory} {v : Byte} (h : HoldsRescaled s n.val pal)
    (hv : s.pal.read (bankAddr (srcBank s.cfg.palCfg) n.val) = some v) :
    engineStep (rescaling s pal n) =
      .next (palAdvance n (rescaling s (pal.write (bankAddr (dstBank s.cfg.palCfg) n.val)
        (convertComponent (srcDepth s.cfg.palCfg) (dstDepth s.cfg.palCfg) v)) n)) := by
  rw [engineStep_palComponent rfl, palComponentStep_ok (s := rescaling s pal n) ((h.read_source n.isLt).trans hv)]
  rfl

section Rescaling

variable {s : State} (hp : s.phase = .palStart) (hds : legalDepth (srcDepth s.cfg.palCfg) = true)
  (hdd : legalDepth (dstDepth s.cfg.palCfg) = true)
  (hw : ∀ n, n < 768 → s.pal.read (bankAddr (srcBank s.cfg.palCfg) n) ≠ none)

include hp hds hdd hw

/-- After the start step and `k` component steps the first `k` components are converted and component `k` is next. -/
theorem engineRun_rescaling {k : Nat} (hk : k < 768) :
    ∃ pal, HoldsRescaled s k pal ∧ ∀ n, engineRun (1 + k + n) s = engineRun n (rescaling s pal ⟨k, hk⟩) := by
  induction k with
  | zero =>
    refine ⟨s.pal, holdsRescaled_zero s, fun n => ?_⟩
    rw [Nat.add_zero, Nat.add_comm]
    exact engineRun_succ n (by simp [hp]) ((engineStep_palStart hp).trans (congrArg _ (palStart_legal hds hdd)))
  | succ k ih =>
    obtain ⟨pal, hholds, hrun⟩ := ih (by omega)
    obtain ⟨v, hv⟩ := Option.ne_none_iff_exists'.mp (hw k (by omega))
    have hstep := engineStep_rescaling (n := ⟨k, by omega⟩) hholds hv
    rw [palAdvance_more (n := ⟨k, by omega⟩) hk] at hstep
    refine ⟨_, hholds.write (by omega) hv, fun n => ?_⟩
    calc engineRun (1 + (k + 1) + n) s = engineRun (n + 1) (rescaling s pal ⟨k, by omega⟩) := by
          rw [← hrun]; congr 1; omega
      _ = _ := engineRun_succ n Phase.noConfusion hstep

/-- The step of component 767 also ends the command (R190). -/
theorem engineRun_rescaled :
    ∃ pal, HoldsRescaled s 768 pal ∧ engineRun 769 s = normalEnd (rescaling s pal 767) := by
  obtain ⟨pal, hholds, hrun⟩ := engineRun_rescaling hp hds hdd hw (k := 767) (by omega)
  obtain ⟨v, hv⟩ := Option.ne_none_iff_exists'.mp (hw 767 (by omega))
  have hstep := engineStep_rescaling (n := 767) hholds hv
  rw [palAdvance_last (n := 767) (by decide)] at hstep
  exact ⟨_, hholds.write (by omega) hv, (hrun 1).trans (engineRun_succ 0 Phase.noConfusion hstep)⟩

end Rescaling

/-! ### The obligations -/

/-- Settles O34: the run to component 767, and its step. -/
theorem palConvertRescalesTheWholeBank : Obligations.PalConvertRescalesTheWholeBank := by
  intro s hp hds hdd hw
  obtain ⟨pal, -, hrun⟩ := engineRun_rescaling hp hds hdd hw (k := 767) (by omega)
  obtain ⟨pal', ⟨hbank, hrest⟩, hend⟩ := engineRun_rescaled hp hds hdd hw
  have hbusy : engineRun 768 s = rescaling s pal 767 := hrun 0
  exact ⟨hbusy ▸ Phase.noConfusion, _, hend, rfl, hbank, hrest⟩

/-- Settles O32: the start step's check, with the legal depths listed. -/
theorem palStartChecksBothDepths : Obligations.PalStartChecksBothDepths := by
  intro s hp
  simp only [exec_palConvert_start hp, ← legalDepth_iff, ← statusError_invalidArgument]
  exact ⟨fun ⟨hds, hdd⟩ => congrArg _ (palStart_legal hds hdd), fun hd => congrArg _ (palStart_refused hd)⟩

/-- Settles O33: the component's byte is stored, and what follows it moves the phase and `STATUS` alone. -/
theorem componentStepStoresTheRescaledByte : Obligations.ComponentStepStoresTheRescaledByte := by
  intro n v s hp hv
  refine ⟨_, (exec_palConvert_component hp).trans (palComponentStep_ok hv), ?_, fun a => ?_, fun hn => ?_, fun hn => ?_⟩
  · rw [palAdvance_pal]
    exact palAdvance_frame n (storeComponent n.val v s)
  · rw [palAdvance_pal]
    exact Memory.read_write s.pal _ _ a
  · rw [palAdvance_more hn]
    exact ⟨rfl, rfl⟩
  · rw [palAdvance_last (by omega)]
    exact ⟨rfl, rfl⟩

/-- Settles O36: below the maximum the conversion is a quotient by a fixed divisor, which grows with its dividend. -/
theorem rescalingIsMonotoneBetweenTheMaxima : Obligations.RescalingIsMonotoneBetweenTheMaxima := by
  intro ds dd hds hdd
  refine ⟨convertComponent_zero ds dd, convertComponent_max hds hdd, fun v w hvw hw => ?_, convertComponent_self hds⟩
  rw [convertComponent_toNat hdd (hvw.trans hw), convertComponent_toNat hdd hw]
  exact ⟨Nat.div_le_div_right (Nat.mul_le_mul_right _ hvw), scaled_le hw _⟩

/-- Settles O35: a common factor of the two maxima cancels, 15 between 4 and 8 bits and 3 otherwise. -/
theorem conversionsHaveTheirClosedForms : Obligations.ConversionsHaveTheirClosedForms := by
  refine ⟨fun v hv => ?_, fun v hv => ?_, fun v hv => ?_, fun v hv => ?_, fun v => ?_, fun v => ?_⟩
  · exact convertComponent_reduced 21 5 3 rfl hv rfl rfl (by decide)
  · simpa using convertComponent_reduced 17 1 15 (ds := 4) (dd := 8) rfl hv rfl rfl (by decide)
  · exact convertComponent_reduced 5 21 3 rfl hv rfl rfl (by decide)
  · exact convertComponent_reduced 85 21 3 rfl hv rfl rfl (by decide)
  · simpa using convertComponent_reduced 1 17 15 (ds := 8) (dd := 4) rfl (Nat.le_of_lt_succ v.isLt) rfl rfl (by decide)
  · exact convertComponent_reduced 21 85 3 rfl (Nat.le_of_lt_succ v.isLt) rfl rfl (by decide)

end Sys2Proof.Machine
end

section
/-! PROOFS. The statements about BMP_EMIT (43_bmp.md): its single steps, the header's fields and the place of every other
byte of the file, then the obligations. -/

namespace Sys2Proof.Machine

/-! ### Single steps (R210, R211, R218) -/

/-- Before any byte, BMP_EMIT is its start step (R210, R211). -/
theorem exec_bmpEmit_start {s : State} (h : s.phase = .bmpStart) : exec .bmpEmit s = .next (bmpStart s) := by
  simp only [exec, execBmpEmit, h]

/-- Where a byte is next, BMP_EMIT is the step of that byte (R210, R218). -/
theorem exec_bmpEmit_byte {s : State} {o : Nat} (h : s.phase = .bmpByte o) : exec .bmpEmit s = bmpByteStep o s := by
  simp only [exec, execBmpEmit, h]

theorem bmpRefused_iff (w h : Nat) : bmpRefused w h = true ↔ w = 0 ∨ h = 0 ∨ Config.rasterCap < w * h := by
  simp [bmpRefused, or_assoc]

/-- What an accepting sink does with the byte offered (R85). -/
theorem sinkWriteCall_accepted {k : Nat} {b : Byte} {s : State} (h : (sinkWriteCall k b s).1 = true) :
    ∃ sink draws, sinkWriteCall k b s = (true, { s with sink := sink, sinkDraws := draws, out := s.out.write k b }) := by
  obtain ⟨sink, draws, hcall | hcall⟩ := sinkWriteCall_cases k b s
  · exact ⟨sink, draws, hcall⟩
  · simp [hcall] at h

/-- A refusing sink stores nothing (R85). -/
theorem sinkWriteCall_refused {k : Nat} {b : Byte} {s : State} (h : (sinkWriteCall k b s).1 = false) :
    ∃ sink draws, sinkWriteCall k b s = (false, { s with sink := sink, sinkDraws := draws }) := by
  obtain ⟨sink, draws, hcall | hcall⟩ := sinkWriteCall_cases k b s
  · simp [hcall] at h
  · exact ⟨sink, draws, hcall⟩

/-- What follows an accepted byte moves `OUT_COUNT`, the phase and `STATUS` alone (R218). -/
theorem bmpAdvance_frame (o : Nat) (s : State) :
    bmpAdvance o s =
      { s with outCount := BitVec.ofNat 32 (o + 1), phase := (bmpAdvance o s).phase, status := (bmpAdvance o s).status } := by
  by_cases ho : o + 1 < cfgFileSize s
  · rw [bmpAdvance_more ho]
  · rw [bmpAdvance_last ho]; rfl

theorem bmpAdvance_out (o : Nat) (s : State) : (bmpAdvance o s).out = s.out := by
  rw [bmpAdvance_frame]

/-- `OUT_COUNT` counts every byte of a file without wrapping (R35, R218). -/
theorem bmpAdvance_outCount {o : Nat} {s : State} (ho : o < cfgFileSize s) : (bmpAdvance o s).outCount.toNat = o + 1 := by
  have hsize := cfgFileSize_lt s
  rw [bmpAdvance_frame]
  exact (BitVec.toNat_ofNat _ 32).trans (Nat.mod_eq_of_lt (by omega))

/-! ### The header (R13, R213, R214) -/

theorem leValue_le16 (v : Nat) : leValue (le16 v) = v % 2 ^ 16 := by
  simp only [le16, leValue, BitVec.toNat_ofNat]
  omega

theorem leValue_le32 (v : Nat) : leValue (le32 v) = v % 2 ^ 32 := by
  simp only [le32, leValue, BitVec.toNat_ofNat]
  omega

/-- An offset behind a field is an offset into the fields that follow it. -/
theorem drop_le16_append (v n : Nat) (rest : List Byte) : (le16 v ++ rest).drop (n + 2) = rest.drop n := rfl

theorem drop_le32_append (v n : Nat) (rest : List Byte) : (le32 v ++ rest).drop (n + 4) = rest.drop n := rfl

/-- A field is read from its own bytes, whatever follows it. -/
theorem take_le16_append (v : Nat) (rest : List Byte) : (le16 v ++ rest).take 2 = le16 v := rfl

theorem take_le32_append (v : Nat) (rest : List Byte) : (le32 v ++ rest).take 4 = le32 v := rfl

theorem take_le32 (v : Nat) : (le32 v).take 4 = le32 v := rfl

/-- The first 54 bytes of the file are its two headers (R212). -/
theorem bmpSource_header (ppm w h : Nat) (bank : BitVec 1) {o : Nat} (ho : o < 54) :
    bmpSource ppm w h bank o = .fixed ((bmpFileHeader w h ++ bmpInfoHeader ppm w h).getD o 0) := if_pos ho

/-! ### The palette and the pixels (R212, R216, R217) -/

/-- Byte `c` of palette entry `i` stands at 54 + c + 4·i (R216). -/
theorem bmpSource_palette (ppm w h : Nat) (bank : BitVec 1) {i c : Nat} (hi : i < 256) (hc : c < 4) :
    bmpSource ppm w h bank (54 + c + 4 * i) = bmpPaletteSource bank i c := by
  have hentry : (54 + c + 4 * i - 54) / 4 = i := by omega
  have hcomponent : (54 + c + 4 * i - 54) % 4 = c := by omega
  rw [bmpSource, if_neg (by omega), if_pos (by rw [bmpPixOff]; omega), hentry, hcomponent]

/-- Column `j` of emitted row `e` stands at pix_off + e·stride + j (R217). -/
theorem bmpSource_pixel (ppm w h : Nat) (bank : BitVec 1) (e : Nat) {j : Nat} (hj : j < bmpStride w) :
    bmpSource ppm w h bank (bmpPixOff + e * bmpStride w + j) = bmpPixelSource w h e j := by
  have hoffset : bmpPixOff + e * bmpStride w + j - bmpPixOff = j + e * bmpStride w := by omega
  have hpos : 0 < bmpStride w := by omega
  rw [bmpSource, if_neg (by rw [bmpPixOff]; omega), if_neg (by omega), hoffset, Nat.add_mul_div_right _ _ hpos,
    Nat.div_eq_of_lt hj, Nat.zero_add, Nat.add_mul_mod_self_right, Nat.mod_eq_of_lt hj]

/-- The raster byte that a pixel byte shows lies inside `RASTER[0 .. W·H)` (R217). -/
theorem rasterAddr_lt {w h e j : Nat} (he : e < h) (hj : j < w) : (h - 1 - e) * w + j < w * h :=
  calc (h - 1 - e) * w + j < (h - 1 - e + 1) * w := by rw [Nat.add_one_mul]; omega
    _ ≤ h * w := Nat.mul_le_mul_right w (by omega)
    _ = w * h := Nat.mul_comm h w

/-! ### The obligations -/

/-- Settles O37: the start step's check, then the sink's answer. -/
theorem bmpStartChecksAndOpensTheSink : Obligations.BmpStartChecksAndOpensTheSink := by
  intro s hp
  rw [exec_bmpEmit_start hp]
  refine ⟨fun hbad => ?_, fun hw hh hwh => ?_⟩
  · rw [bmpStart_refused ((bmpRefused_iff _ _).mpr hbad), ← statusError_invalidArgument]
    rfl
  · have hlegal : bmpRefused (cfgWidth s) (cfgHeight s) = false := (bmpRefused_eq_false_iff _ _).mpr ⟨hw, hh, hwh⟩
    obtain ⟨ok, sink, draws, hopen⟩ := sinkOpenCall_cases s
    rw [bmpStart_opens hlegal, sinkOpenCall_outCount, hopen, ← statusError_ioFailure]
    cases ok with
    | true => exact ⟨_, rfl, rfl, fun _ => ⟨rfl, rfl⟩, Bool.noConfusion⟩
    | false => exact ⟨_, rfl, rfl, Bool.noConfusion, fun _ => ⟨rfl, rfl⟩⟩

/-- Settles O38: the byte is stored by the sink, then counted. -/
theorem acceptedByteIsCounted : Obligations.AcceptedByteIsCounted := by
  intro o b s hp ho hb haccept
  obtain ⟨sink, draws, hcall⟩ := sinkWriteCall_accepted haccept
  have hstep : exec .bmpEmit s =
      .next (bmpAdvance o { s with sink := sink, sinkDraws := draws, out := s.out.write o b }) := by
    rw [exec_bmpEmit_byte hp, bmpByteStep_ok hb, if_pos haccept, hcall]
  rw [hcall]
  refine ⟨_, hstep, ?_, bmpAdvance_outCount ho, fun a => ?_, fun hmore => ?_, fun hlast => ?_⟩
  · rw [bmpAdvance_frame]
  · rw [bmpAdvance_out]
    exact Memory.read_write s.out o b a
  · rw [bmpAdvance_more]
    exacts [⟨rfl, rfl⟩, hmore]
  · rw [bmpAdvance_last]
    exacts [⟨rfl, rfl⟩, hlast.not_lt]

/-- Settles O39: the error entry after the refusal. -/
theorem refusedByteEndsTheCommand : Obligations.RefusedByteEndsTheCommand := by
  intro o b s hp hb hrefuse
  obtain ⟨sink, draws, hcall⟩ := sinkWriteCall_refused hrefuse
  rw [exec_bmpEmit_byte hp, bmpByteStep_ok hb, hcall, ← statusError_ioFailure]
  exact ⟨_, rfl, rfl⟩

/-- Settles O40: the fields before a field are dropped one by one, and its value fits it. -/
theorem headerFieldsReadBack : Obligations.HeaderFieldsReadBack := by
  intro w h hlegal hw hh
  have hsize : 1078 + (w + 3) / 4 * 4 * h ≤ 257078 := bmpFileSize_le hlegal
  refine ⟨bmpFileHeader w h ++ bmpInfoHeader Config.resPpm w h, rfl, fun o bank => bmpSource_header _ w h bank, rfl, ?_⟩
  simp only [bmpFileHeader, bmpInfoHeader, List.append_assoc, List.cons_append, List.nil_append, List.drop_succ_cons,
    List.drop_zero, drop_le16_append, drop_le32_append, take_le16_append, take_le32_append, take_le32]
  simp only [leValue_le16, leValue_le32, bmpFileSize, bmpImageSize, bmpStride, bmpPixOff, Config.resPpm]
  omega

/-- Settles O41: the palette byte and the pixel byte at each offset, by the row and the column the offset stands for. -/
theorem paletteAndPixelBytesAreInPlace : Obligations.PaletteAndPixelBytesAreInPlace := by
  intro ppm w h bank
  refine ⟨fun i hi => ?_, fun e j he hj => ?_⟩
  · have hentry {c : Nat} (hc : c < 4) := bmpSource_palette ppm w h bank hi hc
    exact ⟨hentry (c := 0) (by omega), hentry (c := 1) (by omega), hentry (c := 2) (by omega), hentry (c := 3) (by omega)⟩
  · have hpixel := bmpSource_pixel ppm w h bank e hj
    exact ⟨fun hjw => ⟨hpixel.trans (if_pos hjw), rasterAddr_lt he hjw⟩, fun hwj => hpixel.trans (if_neg hwj.not_gt)⟩

end Sys2Proof.Machine
end

section
/-! PROOFS. The statements about errors and idling (60_exceptions.md): the fields the error entry leaves in `STATUS`, the move of
the agent whose turn it is, what a host access can do to the phase and `STATUS`, then the obligations. -/

namespace Sys2Proof.Machine

/-! ### The error entry (R252) -/

/-- Bit 1 of the constant 0x06 that the error entry writes. -/
@[simp] theorem statusDone_error (code : ErrorCode) (st : BitVec 8) : statusDone (statusError code st) = true := by
  rw [statusDone, statusError, BitVec.getLsbD_or, BitVec.getLsbD_or]
  rfl

/-- Bit 2 of the constant 0x06 that the error entry writes. -/
@[simp] theorem statusErr_error (code : ErrorCode) (st : BitVec 8) : statusErr (statusError code st) = true := by
  rw [statusErr, statusError, BitVec.getLsbD_or, BitVec.getLsbD_or]
  rfl

/-! ### The move of the agent whose turn it is (R255) -/

theorem step_of_engine_turn {s : State} {rest : List Turn} (h : s.turns = .engine :: rest) :
    step s = engineStep { s with turns := rest } := by
  rw [step, moveNext, h]

theorem step_of_host_turn {s : State} {rest : List Turn} (h : s.turns = .host :: rest) :
    step s = hostTurn { s with turns := rest } := by
  rw [step, moveNext, h]

/-- A host with nothing left to do does nothing. -/
theorem hostTurn_done {s : State} (h : s.inbox = []) : hostTurn s = .next s := by
  rw [hostTurn, h]

/-- A host whose next line is an access makes it (R81). -/
theorem hostTurn_access {s : State} {a : BusAccess} {ops : List HostOp} (h : s.inbox = .access a :: ops) :
    hostTurn s = busAccess a { s with inbox := ops } := by
  rw [hostTurn, h]

/-- A host at `wait` reads `STATUS`, and goes on once it has read `BUSY` = 0 (R110). -/
theorem hostTurn_wait {s : State} {ops : List HostOp} (h : s.inbox = .wait :: ops) :
    hostTurn s = .next { s with
      readData := s.status.setWidth 32, inbox := if statusBusy s.status = true then .wait :: ops else ops } := by
  simp only [hostTurn, h, readRegister]
  split
  · rw [← h]
  · rfl

/-! ### What a host access can do to the phase and `STATUS` (R145, R256) -/

/-- A window write of the legal form that finds a register is that register's `st` line (R21, R77, R110). -/
theorem eq_stAccess_of_regAt {a : BusAccess} {r : Reg} {w : Word} (htarget : a.target = .window)
    (hform : windowForm a = true) (hkind : a.kind = .write w) (hreg : regAt a.addr = some r) : a = stAccess r w := by
  obtain ⟨target, addr, width, kind⟩ := a
  obtain ⟨hwidth, -, -⟩ := (windowForm_iff _).mp hform
  have haddr : addr = regOffset r := eq_regOffset_of_regAt hreg
  cases htarget; cases hwidth; cases hkind; cases haddr
  rfl

/-- A write to any register but `CMD` keeps the phase and `STATUS` (R145). -/
theorem writeRegister_keeps_phase_status {r : Option Reg} (h : r ≠ some .cmd) (w : Word) (s : State) :
    (writeRegister r w s).phase = s.phase ∧ (writeRegister r w s).status = s.status := by
  rcases r with _ | r
  · exact ⟨rfl, rfl⟩
  cases r
  case cmd => contradiction
  all_goals exact ⟨rfl, rfl⟩

/-- A `CMD` write shows `BUSY` alone, or sets `OVR` (R140, R142). -/
theorem writeRegister_cmd_status (w : Word) (s : State) :
    (writeRegister (some .cmd) w s).status = 0x01 ∨ (writeRegister (some .cmd) w s).status = s.status ||| 0x08 := by
  unfold writeRegister
  split_ifs
  · exact .inr rfl
  · exact .inl rfl

/-- An answered host access keeps the phase and `STATUS`, unless it is a `CMD` write. -/
theorem busAccess_phase_status_cases {a : BusAccess} {s t : State} (h : busAccess a s = .next t) :
    (t.phase = s.phase ∧ t.status = s.status) ∨ ∃ w, a = stAccess .cmd w ∧ t = writeRegister (some .cmd) w s := by
  cases htarget : a.target with
  | buffer sp =>
    simp only [busAccess, htarget] at h
    obtain ⟨-, -, ⟨b, rfl⟩ | ⟨v, rfl⟩⟩ := bufferAccess_cases h
    · rw [memWrite_frame]
      exact .inl ⟨rfl, rfl⟩
    · exact .inl ⟨rfl, rfl⟩
  | window =>
    simp only [busAccess, htarget] at h
    cases hkind : a.kind with
    | read =>
      rw [windowAccess_read_frame hkind h]
      exact .inl ⟨rfl, rfl⟩
    | write w =>
      simp only [windowAccess, hkind] at h
      split_ifs at h with hform
      cases h
      by_cases hcmd : regAt a.addr = some .cmd
      · exact .inr ⟨w, eq_stAccess_of_regAt htarget hform hkind hcmd, by rw [hcmd]⟩
      · exact .inl (writeRegister_keeps_phase_status hcmd w s)

/-! ### The obligations -/

/-- Settles O53: an idle engine does nothing, the host's move is a `CMD` write or keeps the phase and `STATUS`, and reset
clears `STATUS`. -/
theorem idleBlockWaitsForACommand : Obligations.IdleBlockWaitsForACommand := by
  intro s t hidle hstep
  obtain ⟨rest, hengine | hhost | ⟨hturns, rfl⟩⟩ := step_cases hstep
  · rw [engineStep_idle (s := { s with turns := rest }) hidle] at hengine
    cases hengine
    exact .inl ⟨hidle, rfl⟩
  · obtain ⟨a, ops, hinbox, haccess⟩ | ⟨_, _, rfl⟩ := hostTurn_cases hhost
    · obtain ⟨hphase, hstatus⟩ | ⟨w, rfl, rfl⟩ := busAccess_phase_status_cases haccess
      · exact .inl ⟨hphase.trans hidle, hstatus⟩
      · exact .inr (.inl ⟨w, ops, hinbox, writeRegister_cmd_status w _⟩)
    · exact .inl ⟨hidle, rfl⟩
  · exact .inr (.inr ⟨rest, hturns, rfl⟩)

/-- Settles O43: each field of the word the error entry writes, and the table of the codes' numbers. -/
theorem errorEntryRecordsTheCode : Obligations.ErrorEntryRecordsTheCode :=
  ⟨fun code s => ⟨raiseError code s, rfl, rfl, statusBusy_error code s.status, statusDone_error code s.status,
    statusErr_error code s.status, statusErrCode_error code s.status, statusOvr_error code s.status⟩,
   rfl, rfl, rfl, rfl, rfl, rfl, rfl⟩

/-- Settles O51: the step on each agent's turn, then what that agent's next line or the idle engine does. -/
theorem theAgentWhoseTurnItIsMoves : Obligations.TheAgentWhoseTurnItIsMoves := by
  intro s rest
  refine ⟨step_of_engine_turn, fun a ops hturn hinbox => ?_, fun ops hturn hinbox => ?_, fun hturn hinbox => ?_,
    fun hturn hidle => ?_⟩
  · exact (step_of_host_turn hturn).trans (hostTurn_access hinbox)
  · exact (step_of_host_turn hturn).trans (hostTurn_wait hinbox)
  · exact (step_of_host_turn hturn).trans (hostTurn_done hinbox)
  · exact (step_of_engine_turn hturn).trans (engineStep_idle hidle)

end Sys2Proof.Machine
end

section
/-! PROOFS. The statements about reset and hazards (70_reset_and_hazards.md): a byte access while the block is busy, the reset
move and the buffers after it, then the obligations. -/

namespace Sys2Proof.Machine

/-- A byte access to an address that exists is refused while `BUSY` = 1, whether it reads or writes (R286; log 6). -/
theorem bufferAccess_busy {sp : Space} {a : BusAccess} {s : State} (hb : statusBusy s.status = true) (hw : a.width = 8)
    (ha : a.addr < spaceSize sp) : bufferAccess sp a s = .fault .refusedAccess := by
  rw [bufferAccess, if_neg (not_not.mpr hw), if_neg ha.not_ge, if_pos hb]

/-- The platform's move is its reset (R255, R280; log 2). -/
theorem step_of_reset_turn {s : State} {rest : List Turn} (h : s.turns = .reset :: rest) :
    step s = .next (platformReset { s with turns := rest }) := by
  rw [step, moveNext, h]

/-- The platform's reset leaves each buffer as it is at power-on (R280, R281). -/
@[simp] theorem spaceMem_platformReset (sp : Space) (s : State) :
    spaceMem sp (platformReset s) = spaceMem sp State.reset := by
  cases sp
  case input => exact platformReset_inBuf s
  case raster => exact platformReset_raster s
  case pal => exact platformReset_pal s

/-! ### The obligations -/

/-- Settles O19: the width and the range of both accesses are legal, so the check of `BUSY` decides, before the direction. -/
theorem bufferAccessWhileBusyIsRefused : Obligations.BufferAccessWhileBusyIsRefused :=
  fun sp a b _ hb ha =>
    ⟨bufferAccess_busy (a := lbAccess sp a) hb rfl ha, bufferAccess_busy (a := sbAccess sp a b) hb rfl ha⟩

/-- Settles O45: the reset move takes the registers, the phase and the buffers from the reset state, whose values
`resetGivesTheStatedValues` lists (R280), and `OUT` from the state before. -/
theorem platformResetForgetsTheBuffers : Obligations.PlatformResetForgetsTheBuffers := by
  intro s rest hturns
  obtain ⟨hstatus, hinLen, hdecLimit, hinPos, hcursor, hpalCfg, hbmpW, hbmpH, hbmpCfg, houtCount, hphase, hsinkOpen,
    hunwritten, -, -⟩ := resetGivesTheStatedValues
  refine ⟨platformReset { s with turns := rest }, step_of_reset_turn hturns, hstatus, hphase, hsinkOpen,
    platformReset_out _, fun sp a => ?_, hinLen, hdecLimit, hinPos, hcursor, hpalCfg, hbmpW, hbmpH, hbmpCfg, houtCount⟩
  rw [spaceMem_platformReset]
  exact hunwritten sp a

end Sys2Proof.Machine
end
